-- ==== Sys2Proof/Word.lean ====
section
/-! DEFINITION. The widths of the machine's values (00_scope.md R6 to R12, R17, R18): all unsigned.
Nothing here can be mended later, so nothing here computes. -/

namespace Sys2Proof

/-- An 8-bit value: a general register, a memory byte, a timer, the NN field (R7, R12, R81). -/
abbrev Byte := BitVec 8

/-- A 16-bit value: pc, I, a return address, an instruction word (R8, R9, R80). -/
abbrev Word := BitVec 16

/-- A 4-bit field: the leading nibble, the N field, a sub-operation (R81). -/
abbrev Nibble := BitVec 4

/-- The 12-bit NNN field, an address 0x000 to 0xFFF (R81). -/
abbrev Addr := BitVec 12

/-- A general register's index, the X or Y field (R21, R81). -/
abbrev RegIdx := BitVec 4

/-- A key's index 0x0 to 0xF (R11). -/
abbrev KeyIdx := BitVec 4

end Sys2Proof
end

