-- ==== Sys2Proof/Config.lean ====
section
/-! DEFINITION. What an implementation fixes: the sizes (00_scope.md R6 to R13), the behaviour
parameters a model takes as arguments with the defaults of R16, and the one free value, the random
draw (45_random_input_timers.md R250). -/

namespace Sys2Proof

/-- MEM_SIZE, bytes of memory (R6). -/
@[simp] def Config.memSize : Nat := 4096

/-- STACK_DEPTH, entries of the call stack (R9). -/
@[simp] def Config.stackDepth : Nat := 16

/-- DISP_W, columns of the framebuffer (R10). -/
@[simp] def Config.dispW : Nat := 64

/-- DISP_H, rows of the framebuffer (R10). -/
@[simp] def Config.dispH : Nat := 32

/-- PROG_START, where programs are loaded and the reset value of pc (R13, R330). -/
@[simp] def Config.progStart : Nat := 0x200

/-- MAX_ROM, the longest program `load` accepts (R13). -/
@[simp] def Config.maxRom : Nat := 3584

/-- OOB_POLICY (R16, R64): what an access at an address of 4096 or more does. -/
inductive OobPolicy where
  | fault
  | wrap
  deriving DecidableEq, Repr

/-- SYS_POLICY (R16, R85): whether 0x0NNN is SYS or Unknown. -/
inductive SysPolicy where
  | nop
  | unknown
  deriving DecidableEq, Repr

/-- JUMP_OFFSET_MODE (R16, R139): which register JP V0, nnn adds. -/
inductive JumpOffsetMode where
  | v0
  | vx
  deriving DecidableEq, Repr

/-- The behaviour parameters of R16 that a rule depends on. INSTR_RATE (R15) is not among them: "no
rule of this spec depends on it". -/
structure Params where
  oob  : OobPolicy
  sys  : SysPolicy
  jump : JumpOffsetMode
  deriving DecidableEq, Repr

/-- The default of each parameter (R16; decisions D2, D5, D9). -/
def Params.default : Params := { oob := .fault, sys := .nop, jump := .v0 }

/-- FREE VALUE (DESIGN CHOICE of form, log 2): the n-th value the injected random source yields,
"a free 8-bit input of the step, any of 0x00..0xFF, under no law" (R250, D22). No body. -/
opaque Config.freeDraw : Nat → Byte

end Sys2Proof
end

