-- ==== Sys2Proof/Syntax.lean ====
section
/-! DEFINITION. The 35 operations (30_encoding.md R93), one constructor per row of
spec/opcode_table.json, in the table's order. The operands are the fields the row names (R81, R82),
the Y field of SHR and SHL among them, which is "decoded and ignored" (42_alu.md R168, R170). -/

namespace Sys2Proof

inductive Instr where
  /-- SYS nnn, 0x0NNN but 0x00E0 and 0x00EE (R130) -/
  | sys (nnn : Addr)
  /-- CLS, 0x00E0 (R234) -/
  | cls
  /-- RET, 0x00EE (R131) -/
  | ret
  /-- JP nnn, 0x1NNN (R132) -/
  | jp (nnn : Addr)
  /-- CALL nnn, 0x2NNN (R133) -/
  | call (nnn : Addr)
  /-- SE Vx, nn, 0x3XNN (R134) -/
  | seImm (x : RegIdx) (nn : Byte)
  /-- SNE Vx, nn, 0x4XNN (R135) -/
  | sneImm (x : RegIdx) (nn : Byte)
  /-- SE Vx, Vy, 0x5XY0 (R136) -/
  | seReg (x y : RegIdx)
  /-- LD Vx, nn, 0x6XNN (R160) -/
  | ldImm (x : RegIdx) (nn : Byte)
  /-- ADD Vx, nn, 0x7XNN (R161) -/
  | addImm (x : RegIdx) (nn : Byte)
  /-- LD Vx, Vy, 0x8XY0 (R162) -/
  | ldReg (x y : RegIdx)
  /-- OR Vx, Vy, 0x8XY1 (R163) -/
  | orReg (x y : RegIdx)
  /-- AND Vx, Vy, 0x8XY2 (R164) -/
  | andReg (x y : RegIdx)
  /-- XOR Vx, Vy, 0x8XY3 (R165) -/
  | xorReg (x y : RegIdx)
  /-- ADD Vx, Vy, 0x8XY4 (R166) -/
  | addReg (x y : RegIdx)
  /-- SUB Vx, Vy, 0x8XY5 (R167) -/
  | subReg (x y : RegIdx)
  /-- SHR Vx, 0x8XY6 (R168) -/
  | shr (x y : RegIdx)
  /-- SUBN Vx, Vy, 0x8XY7 (R169) -/
  | subnReg (x y : RegIdx)
  /-- SHL Vx, 0x8XYE (R170) -/
  | shl (x y : RegIdx)
  /-- SNE Vx, Vy, 0x9XY0 (R137) -/
  | sneReg (x y : RegIdx)
  /-- LD I, nnn, 0xANNN (R200) -/
  | ldI (nnn : Addr)
  /-- JP V0, nnn, 0xBNNN (R139) -/
  | jpV0 (nnn : Addr)
  /-- RND Vx, nn, 0xCXNN (R250) -/
  | rnd (x : RegIdx) (nn : Byte)
  /-- DRW Vx, Vy, n, 0xDXYN (R235) -/
  | drw (x y : RegIdx) (n : Nibble)
  /-- SKP Vx, 0xEX9E (R252) -/
  | skp (x : RegIdx)
  /-- SKNP Vx, 0xEXA1 (R253) -/
  | sknp (x : RegIdx)
  /-- LD Vx, DT, 0xFX07 (R257) -/
  | ldVxDt (x : RegIdx)
  /-- LD Vx, K, 0xFX0A (R255) -/
  | ldVxK (x : RegIdx)
  /-- LD DT, Vx, 0xFX15 (R258) -/
  | ldDtVx (x : RegIdx)
  /-- LD ST, Vx, 0xFX18 (R259) -/
  | ldStVx (x : RegIdx)
  /-- ADD I, Vx, 0xFX1E (R201) -/
  | addI (x : RegIdx)
  /-- LD F, Vx, 0xFX29 (R202) -/
  | ldF (x : RegIdx)
  /-- LD B, Vx, 0xFX33 (R205) -/
  | ldB (x : RegIdx)
  /-- LD [I], Vx, 0xFX55 (R206) -/
  | ldMemVx (x : RegIdx)
  /-- LD Vx, [I], 0xFX65 (R207) -/
  | ldVxMem (x : RegIdx)
  deriving DecidableEq, Repr

end Sys2Proof
end

