-- ==== Sys2Proof/WellFormed.lean ====
section
/-! DEFINITION. Which terms of Instr stand for an instruction word. Every operand is in range by its
type; the one check left is that SYS does not name the two addresses whose words are CLS and RET
(41_control_flow.md R130: `0x0NNN` with w not in 0x00E0, 0x00EE). -/

namespace Sys2Proof

/-- The word 0x0NNN is SYS (R85, R130). -/
def Instr.sysOperandOk (nnn : Addr) : Bool := nnn != 0x0E0#12 && nnn != 0x0EE#12

def Instr.wellFormed : Instr → Bool
  | .sys nnn => Instr.sysOperandOk nnn
  | .cls | .ret | .jp _ | .call _ | .seImm _ _ | .sneImm _ _ | .seReg _ _ | .ldImm _ _ | .addImm _ _
  | .ldReg _ _ | .orReg _ _ | .andReg _ _ | .xorReg _ _ | .addReg _ _ | .subReg _ _ | .shr _ _
  | .subnReg _ _ | .shl _ _ | .sneReg _ _ | .ldI _ | .jpV0 _ | .rnd _ _ | .drw _ _ _ | .skp _ | .sknp _
  | .ldVxDt _ | .ldVxK _ | .ldDtVx _ | .ldStVx _ | .addI _ | .ldF _ | .ldB _ | .ldMemVx _ | .ldVxMem _ => true

end Sys2Proof
end

