-- ==== Sys2Proof/Decode.lean ====
section
/-! DEFINITION. The decoder over all 65536 words (30_encoding.md R80 to R97), then the encoder, then
the opcode table's rows as masks and values, written from spec/opcode_table.json. -/

namespace Sys2Proof

/-! ## Fields (R81) -/

/-- `op = w[15:12]`, the leading nibble. -/
def opField (w : Word) : Nibble := w.extractLsb' 12 4

/-- `X = w[11:8]`. -/
def xField (w : Word) : RegIdx := w.extractLsb' 8 4

/-- `Y = w[7:4]`. -/
def yField (w : Word) : RegIdx := w.extractLsb' 4 4

/-- `N = w[3:0]`, also the sub-operation nibble S. -/
def nField (w : Word) : Nibble := w.extractLsb' 0 4

/-- `NN = w[7:0]`, also the sub-operation byte SS. -/
def nnField (w : Word) : Byte := w.extractLsb' 0 8

/-- `NNN = w[11:0]`. -/
def nnnField (w : Word) : Addr := w.extractLsb' 0 12

/-! ## The decoder -/

/-- What a word decodes to: one of the 35 operations or `Unknown(w)` (R96). -/
inductive Decoded where
  | op (i : Instr)
  | unknown (w : Word)
  deriving DecidableEq, Repr

/-- Family 0x8, selected by S = N (R89). -/
def decodeAlu (w : Word) : Decoded :=
  match nField w with
  | 0x0#4 => .op (.ldReg (xField w) (yField w))
  | 0x1#4 => .op (.orReg (xField w) (yField w))
  | 0x2#4 => .op (.andReg (xField w) (yField w))
  | 0x3#4 => .op (.xorReg (xField w) (yField w))
  | 0x4#4 => .op (.addReg (xField w) (yField w))
  | 0x5#4 => .op (.subReg (xField w) (yField w))
  | 0x6#4 => .op (.shr (xField w) (yField w))
  | 0x7#4 => .op (.subnReg (xField w) (yField w))
  | 0xE#4 => .op (.shl (xField w) (yField w))
  | _ => .unknown w

/-- Family 0xE, selected by SS = NN (R91). -/
def decodeKey (w : Word) : Decoded :=
  match nnField w with
  | 0x9E#8 => .op (.skp (xField w))
  | 0xA1#8 => .op (.sknp (xField w))
  | _ => .unknown w

/-- Family 0xF, selected by SS = NN (R92). -/
def decodeMisc (w : Word) : Decoded :=
  match nnField w with
  | 0x07#8 => .op (.ldVxDt (xField w))
  | 0x0A#8 => .op (.ldVxK (xField w))
  | 0x15#8 => .op (.ldDtVx (xField w))
  | 0x18#8 => .op (.ldStVx (xField w))
  | 0x1E#8 => .op (.addI (xField w))
  | 0x29#8 => .op (.ldF (xField w))
  | 0x33#8 => .op (.ldB (xField w))
  | 0x55#8 => .op (.ldMemVx (xField w))
  | 0x65#8 => .op (.ldVxMem (xField w))
  | _ => .unknown w

/-- Family 0x0 but for its two exact words: SYS or Unknown by SYS_POLICY (R85). -/
def decodeSys (p : SysPolicy) (w : Word) : Decoded :=
  match p with
  | .nop => .op (.sys (nnnField w))
  | .unknown => .unknown w

/-- The families but for the two exact words of family 0x0 (R83, R85 to R92, R95). -/
def decodeFamily (p : SysPolicy) (w : Word) : Decoded :=
  match opField w with
  | 0x0#4 => decodeSys p w
  | 0x1#4 => .op (.jp (nnnField w))
  | 0x2#4 => .op (.call (nnnField w))
  | 0x3#4 => .op (.seImm (xField w) (nnField w))
  | 0x4#4 => .op (.sneImm (xField w) (nnField w))
  | 0x5#4 => if nField w = 0x0#4 then .op (.seReg (xField w) (yField w)) else .unknown w
  | 0x6#4 => .op (.ldImm (xField w) (nnField w))
  | 0x7#4 => .op (.addImm (xField w) (nnField w))
  | 0x8#4 => decodeAlu w
  | 0x9#4 => if nField w = 0x0#4 then .op (.sneReg (xField w) (yField w)) else .unknown w
  | 0xA#4 => .op (.ldI (nnnField w))
  | 0xB#4 => .op (.jpV0 (nnnField w))
  | 0xC#4 => .op (.rnd (xField w) (nnField w))
  | 0xD#4 => .op (.drw (xField w) (yField w) (nField w))
  | 0xE#4 => decodeKey w
  | _ => decodeMisc w

/-- The whole decoder: the exact words 0x00E0 and 0x00EE first, then family and sub-operation. Total
and a function of w and SYS_POLICY alone (R94). -/
def decodeWord (p : SysPolicy) (w : Word) : Decoded :=
  if w = 0x00E0#16 then .op .cls
  else if w = 0x00EE#16 then .op .ret
  else decodeFamily p w

/-- Why a list of bytes holds no instruction at its head. -/
inductive DecodeError where
  /-- the word is none of the 35 operations (R96) -/
  | unknown (w : Word)
  /-- fewer than two bytes: every instruction is two bytes (R80) -/
  | truncated (n : Nat)
  deriving DecidableEq, Repr

/-- The word of two bytes in memory order, high byte first (20_memory.md R63). -/
def wordOfBytes (hi lo : Byte) : Word := hi ++ lo

/-- The two bytes of a word in memory order (R63). -/
def bytesOfWord (w : Word) : List Byte := [w.extractLsb' 8 8, w.extractLsb' 0 8]

/-- The decoder on bytes: the instruction at the head, and the bytes after it. -/
def decodeBytes (p : SysPolicy) : List Byte → Except DecodeError (Instr × List Byte)
  | hi :: lo :: rest =>
    match decodeWord p (wordOfBytes hi lo) with
    | .op i => .ok (i, rest)
    | .unknown w => .error (.unknown w)
  | [_] => .error (.truncated 1)
  | [] => .error (.truncated 0)

/-! ## The encoder (R82, R85 to R92) -/

def encode : Instr → Word
  | .sys nnn => 0x0#4 ++ nnn
  | .cls => 0x00E0#16
  | .ret => 0x00EE#16
  | .jp nnn => 0x1#4 ++ nnn
  | .call nnn => 0x2#4 ++ nnn
  | .seImm x nn => 0x3#4 ++ x ++ nn
  | .sneImm x nn => 0x4#4 ++ x ++ nn
  | .seReg x y => 0x5#4 ++ x ++ y ++ 0x0#4
  | .ldImm x nn => 0x6#4 ++ x ++ nn
  | .addImm x nn => 0x7#4 ++ x ++ nn
  | .ldReg x y => 0x8#4 ++ x ++ y ++ 0x0#4
  | .orReg x y => 0x8#4 ++ x ++ y ++ 0x1#4
  | .andReg x y => 0x8#4 ++ x ++ y ++ 0x2#4
  | .xorReg x y => 0x8#4 ++ x ++ y ++ 0x3#4
  | .addReg x y => 0x8#4 ++ x ++ y ++ 0x4#4
  | .subReg x y => 0x8#4 ++ x ++ y ++ 0x5#4
  | .shr x y => 0x8#4 ++ x ++ y ++ 0x6#4
  | .subnReg x y => 0x8#4 ++ x ++ y ++ 0x7#4
  | .shl x y => 0x8#4 ++ x ++ y ++ 0xE#4
  | .sneReg x y => 0x9#4 ++ x ++ y ++ 0x0#4
  | .ldI nnn => 0xA#4 ++ nnn
  | .jpV0 nnn => 0xB#4 ++ nnn
  | .rnd x nn => 0xC#4 ++ x ++ nn
  | .drw x y n => 0xD#4 ++ x ++ y ++ n
  | .skp x => 0xE#4 ++ x ++ 0x9E#8
  | .sknp x => 0xE#4 ++ x ++ 0xA1#8
  | .ldVxDt x => 0xF#4 ++ x ++ 0x07#8
  | .ldVxK x => 0xF#4 ++ x ++ 0x0A#8
  | .ldDtVx x => 0xF#4 ++ x ++ 0x15#8
  | .ldStVx x => 0xF#4 ++ x ++ 0x18#8
  | .addI x => 0xF#4 ++ x ++ 0x1E#8
  | .ldF x => 0xF#4 ++ x ++ 0x29#8
  | .ldB x => 0xF#4 ++ x ++ 0x33#8
  | .ldMemVx x => 0xF#4 ++ x ++ 0x55#8
  | .ldVxMem x => 0xF#4 ++ x ++ 0x65#8

/-- The bytes of an instruction as memory holds them. -/
def encodeBytes (i : Instr) : List Byte := bytesOfWord (encode i)

/-! ## The opcode table -/

/-- A row of spec/opcode_table.json: its mask, its value, and the words its note leaves out. -/
structure OpcodeRow where
  mask   : Word
  value  : Word
  butFor : List Word
  deriving DecidableEq, Repr

/-- The word is in the row: `w &&& mask = value`, and the row does not leave it out. -/
def OpcodeRow.matchesWord (r : OpcodeRow) (w : Word) : Bool :=
  w &&& r.mask == r.value && !r.butFor.contains w

/-- The row of each operation, from spec/opcode_table.json; SYS's is "any 0NNN other than 00E0 and
00EE" (its note, and section 6 of 30_encoding.md), so that no word is in two rows (R94). -/
def Instr.row : Instr → OpcodeRow
  | .sys _ => ⟨0xF000#16, 0x0000#16, [0x00E0#16, 0x00EE#16]⟩
  | .cls => ⟨0xFFFF#16, 0x00E0#16, []⟩
  | .ret => ⟨0xFFFF#16, 0x00EE#16, []⟩
  | .jp _ => ⟨0xF000#16, 0x1000#16, []⟩
  | .call _ => ⟨0xF000#16, 0x2000#16, []⟩
  | .seImm _ _ => ⟨0xF000#16, 0x3000#16, []⟩
  | .sneImm _ _ => ⟨0xF000#16, 0x4000#16, []⟩
  | .seReg _ _ => ⟨0xF00F#16, 0x5000#16, []⟩
  | .ldImm _ _ => ⟨0xF000#16, 0x6000#16, []⟩
  | .addImm _ _ => ⟨0xF000#16, 0x7000#16, []⟩
  | .ldReg _ _ => ⟨0xF00F#16, 0x8000#16, []⟩
  | .orReg _ _ => ⟨0xF00F#16, 0x8001#16, []⟩
  | .andReg _ _ => ⟨0xF00F#16, 0x8002#16, []⟩
  | .xorReg _ _ => ⟨0xF00F#16, 0x8003#16, []⟩
  | .addReg _ _ => ⟨0xF00F#16, 0x8004#16, []⟩
  | .subReg _ _ => ⟨0xF00F#16, 0x8005#16, []⟩
  | .shr _ _ => ⟨0xF00F#16, 0x8006#16, []⟩
  | .subnReg _ _ => ⟨0xF00F#16, 0x8007#16, []⟩
  | .shl _ _ => ⟨0xF00F#16, 0x800E#16, []⟩
  | .sneReg _ _ => ⟨0xF00F#16, 0x9000#16, []⟩
  | .ldI _ => ⟨0xF000#16, 0xA000#16, []⟩
  | .jpV0 _ => ⟨0xF000#16, 0xB000#16, []⟩
  | .rnd _ _ => ⟨0xF000#16, 0xC000#16, []⟩
  | .drw _ _ _ => ⟨0xF000#16, 0xD000#16, []⟩
  | .skp _ => ⟨0xF0FF#16, 0xE09E#16, []⟩
  | .sknp _ => ⟨0xF0FF#16, 0xE0A1#16, []⟩
  | .ldVxDt _ => ⟨0xF0FF#16, 0xF007#16, []⟩
  | .ldVxK _ => ⟨0xF0FF#16, 0xF00A#16, []⟩
  | .ldDtVx _ => ⟨0xF0FF#16, 0xF015#16, []⟩
  | .ldStVx _ => ⟨0xF0FF#16, 0xF018#16, []⟩
  | .addI _ => ⟨0xF0FF#16, 0xF01E#16, []⟩
  | .ldF _ => ⟨0xF0FF#16, 0xF029#16, []⟩
  | .ldB _ => ⟨0xF0FF#16, 0xF033#16, []⟩
  | .ldMemVx _ => ⟨0xF0FF#16, 0xF055#16, []⟩
  | .ldVxMem _ => ⟨0xF0FF#16, 0xF065#16, []⟩

/-- One instruction of each of the 35 operations (R93), in the table's order. -/
def Instr.samples : List Instr :=
  [.sys 0, .cls, .ret, .jp 0, .call 0, .seImm 0 0, .sneImm 0 0, .seReg 0 0, .ldImm 0 0, .addImm 0 0,
    .ldReg 0 0, .orReg 0 0, .andReg 0 0, .xorReg 0 0, .addReg 0 0, .subReg 0 0, .shr 0 0, .subnReg 0 0] ++
  [.shl 0 0, .sneReg 0 0, .ldI 0, .jpV0 0, .rnd 0 0, .drw 0 0 0, .skp 0, .sknp 0, .ldVxDt 0, .ldVxK 0,
    .ldDtVx 0, .ldStVx 0, .addI 0, .ldF 0, .ldB 0, .ldMemVx 0, .ldVxMem 0]

/-- The 35 rows of the opcode table. -/
def opcodeRows : List OpcodeRow := Instr.samples.map Instr.row

/-! ## The host's question -/

/-- The one word of an instruction whose bits are w, with every bit above nbits zero. -/
def tableWord (nbits w : Nat) : Word := BitVec.ofNat 16 (w % 2 ^ nbits)

/-- The instruction the decoder reads from the bytes of that word, laid out as memory holds them
(R63), under the default SYS_POLICY (R16). -/
def decodeTableWord (nbits w : Nat) : Option Instr :=
  match decodeBytes Params.default.sys (bytesOfWord (tableWord nbits w)) with
  | .ok (i, _) => some i
  | .error _ => none

end Sys2Proof
end

