-- ==== Sys2Proof/Machine/State.lean ====
section
/-! DEFINITION. Everything the spec gives the machine, as plain data (10_state.md section 1), the
reasons a step or a transaction can stop, and the state after construction (70_reset_and_hazards.md
R330). -/

namespace Sys2Proof.Machine

/-- The machine mode (10_state.md R35). -/
inductive Mode where
  | running
  | awaitingKey (x : RegIdx)
  deriving DecidableEq, Repr

/-- Memory as the list of the bytes that differ from the reset contents, addresses rising (log 5). -/
abbrev Memory := List Host.Cell

/-- The framebuffer, `fb[y][x]`: 32 rows of 64 pixels, row-major (R33). -/
abbrev Framebuffer := Vector (Vector Bool 64) 32

/-- The typed errors of 60_exceptions.md R280, a closed taxonomy. Each is reported to the caller with
the state as it was before the step (40_step_cycle.md R116): a fault carries no state. -/
inductive Fault where
  /-- `DecodeError::Unknown(w)`, raised by a Running step whose word is none of the 35 operations
  (R281). Safe: the spec's strict decoder (R95) stops where a lenient one would go on. -/
  | decodeUnknown (w : Word)
  /-- `StackOverflow`, raised by CALL at depth 16 (R282). The spec's own error; safe. -/
  | stackOverflow
  /-- `StackUnderflow`, raised by RET at depth 0 (R283). The spec's own error; safe. -/
  | stackUnderflow
  /-- `MemoryOutOfBounds(a)`, raised under OOB_POLICY = fault by a fetch, DRW, LD B, LD [I] and
  LD Vx, [I] (R284). The spec's own error; safe. -/
  | memoryOutOfBounds (a : Nat)
  /-- `LoadError`, raised by the host's `load` alone, never by a step (R285). The spec's own error;
  safe. -/
  | loadError
  deriving DecidableEq, Repr

/-- What the model has no meaning for. The last four are host arguments outside the interface: two that
"a model refuses" (R293, R296, decision D32), and two the model refuses likewise (logs 35, 36). No step
raises them. -/
inductive Refusal where
  /-- An instruction without a meaning yet, raised by exec's arm. Safe. None is left. -/
  | notModelled (mnemonic : String)
  /-- `set_key(k, p)` with k above 15 (R293). Safe: outside the interface. -/
  | keyOutOfRange (k : Nat)
  /-- `is_set(x, y)` off the screen (R296). Safe: outside the interface. -/
  | pixelOutOfRange (x y : Nat)
  /-- Inspection of a memory byte from 4096 on, which does not exist (R298). DESIGN CHOICE, log 36; safe:
  outside the interface. -/
  | byteOutOfRange (a : Nat)
  /-- Inspection of a stack entry at position sp or above, which holds no value and is "not observable"
  (R29). DESIGN CHOICE, log 35; safe: outside the interface. -/
  | entryOutOfRange (k : Nat)
  deriving DecidableEq, Repr

/-- The machine's state (10_state.md section 1). -/
structure State where
  /-- V0 to VF (R21) -/
  v : Vector Byte 16
  /-- the index register I (R24) -/
  i : Word
  /-- the program counter (R25) -/
  pc : Word
  /-- the call stack, the most recent entry first; its length is `sp` (R29, log 9) -/
  stack : List Word
  /-- the delay timer DT (R27) -/
  dt : Byte
  /-- the sound timer ST (R27) -/
  st : Byte
  /-- the framebuffer (R33) -/
  fb : Framebuffer
  /-- the dirty flag (R34) -/
  dirty : Bool
  /-- Running or AwaitingKey(x) (R35) -/
  mode : Mode
  /-- the keypad snapshot (R36) -/
  keys : Vector Bool 16
  /-- the snapshot at the last completed step (R36) -/
  keysPrev : Vector Bool 16
  /-- memory (20_memory.md R60) -/
  mem : Memory
  /-- the model's own: values substituted for the random source's next draws (R250, log 2) -/
  rngPending : List Byte
  /-- the model's own: how many free draws were taken (R38, R250, log 2) -/
  rngDrawn : Nat
  /-- the behaviour parameters, arguments of the model that no step changes (R16, log 1) -/
  params : Params
  deriving DecidableEq, Repr

/-- The state after construction under given parameters (R330, R331). -/
def State.construct (p : Params) : State where
  v := Vector.replicate 16 0#8
  i := 0#16
  pc := 0x200#16
  stack := []
  dt := 0#8
  st := 0#8
  fb := Vector.replicate 32 (Vector.replicate 64 false)
  dirty := false
  mode := .running
  keys := Vector.replicate 16 false
  keysPrev := Vector.replicate 16 false
  mem := []
  rngPending := []
  rngDrawn := 0
  params := p

/-- The machine right after reset, every parameter at its default (R16, R330). -/
def State.reset : State := State.construct Params.default

end Sys2Proof.Machine
end

