-- ==== Sys2Proof/Machine/Ops.lean ====
section
/-! DEFINITION. The named operations over memory, registers, the stack, the keypad, the random source
and the framebuffer, and raising an error. Meanings are written over these alone. -/

namespace Sys2Proof.Machine

/-- What one step answers. -/
abbrev Result := Host.Outcome State Fault Refusal

/-! ## Raising an error (60_exceptions.md R288, R289)

An error "saves nothing, changes no mode, pushes nothing and transfers control nowhere": there is no
vector, no saved register and no return from an error. The caller keeps the state it had, which is the
rollback of 40_step_cycle.md R116. -/

/-- `raise E(info)` (00_scope.md R19). -/
def raise (e : Fault) : Result := .fault e

/-- Go on with the value, or raise the error an access met. -/
def onOk {α : Type} (r : Except Fault α) (k : α → Result) : Result :=
  match r with
  | .ok a => k a
  | .error e => raise e

/-! ## The font and the reset contents of memory -/

/-- FONT_BASE (R14). -/
@[simp] def fontBase : Nat := 0x050

/-- GLYPH_BYTES (R14). -/
@[simp] def glyphBytes : Nat := 5

/-- The 80 glyph bytes, glyph 0 to glyph F, five rows each (10_state.md R37). PRESUMED, log 6: the
spec marks them as general knowledge. -/
def fontData : List Byte :=
  [0xF0, 0x90, 0x90, 0x90, 0xF0] ++ [0x20, 0x60, 0x20, 0x20, 0x70] ++
  [0xF0, 0x10, 0xF0, 0x80, 0xF0] ++ [0xF0, 0x10, 0xF0, 0x10, 0xF0] ++
  [0x90, 0x90, 0xF0, 0x10, 0x10] ++ [0xF0, 0x80, 0xF0, 0x10, 0xF0] ++
  [0xF0, 0x80, 0xF0, 0x90, 0xF0] ++ [0xF0, 0x10, 0x20, 0x40, 0x40] ++
  [0xF0, 0x90, 0xF0, 0x90, 0xF0] ++ [0xF0, 0x90, 0xF0, 0x10, 0xF0] ++
  [0xF0, 0x90, 0xF0, 0x90, 0x90] ++ [0xE0, 0x90, 0xE0, 0x90, 0xE0] ++
  [0xF0, 0x80, 0x80, 0x80, 0xF0] ++ [0xE0, 0x90, 0x90, 0x90, 0xE0] ++
  [0xF0, 0x80, 0xF0, 0x80, 0xF0] ++ [0xF0, 0x80, 0xF0, 0x80, 0x80]

/-- What an unlisted address reads as: the reset contents, "memory zeroed except font data"
(20_memory.md R74). -/
def resetByte (a : Nat) : Byte :=
  if fontBase ≤ a then fontData.getD (a - fontBase) 0#8 else 0#8

/-! ## Memory (20_memory.md) -/

/-- `mem[a]` (R60). -/
def Memory.read : Memory → Nat → Byte
  | [], a => resetByte a
  | c :: m, a => if c.1 = a then c.2 else Memory.read m a

/-- Put a cell before the first one at a higher address. -/
def Memory.insertCell (a : Nat) (b : Byte) : Memory → Memory
  | [] => [(a, b)]
  | c :: m => if a < c.1 then (a, b) :: c :: m else c :: Memory.insertCell a b m

/-- `mem[a] <- b`; a byte equal to the reset contents is not listed. -/
def Memory.write (m : Memory) (a : Nat) (b : Byte) : Memory :=
  let rest := m.filter fun c => c.1 != a
  if b = resetByte a then rest else Memory.insertCell a b rest

/-- Several bytes, in the order listed. -/
def Memory.writeAll (m : Memory) (cells : List (Nat × Byte)) : Memory :=
  cells.foldl (fun m c => Memory.write m c.1 c.2) m

/-- The canonical form: addresses rising and inside [0, 4096), no byte equal to the reset contents. -/
abbrev Memory.wf (m : Memory) : Prop :=
  m.Pairwise (fun c d => c.1 < d.1) ∧ ∀ c ∈ m, c.1 < Config.memSize ∧ c.2 ≠ resetByte c.1

/-! ## The address check (R64, R65) -/

/-- The array index an access at a computed address reaches, or `MemoryOutOfBounds(a)` (R64). -/
def resolve (p : OobPolicy) (a : Nat) : Except Fault Nat :=
  if a < Config.memSize then .ok a
  else match p with
  | .fault => .error (.memoryOutOfBounds a)
  | .wrap => .ok (a % Config.memSize)

/-- The indices of n accesses from `a` upward, every one checked; the error is the first one in
ascending order (R65, 43_index_memory.md R204). -/
def resolveRange (p : OobPolicy) (a : Nat) : Nat → Except Fault (List Nat)
  | 0 => .ok []
  | n + 1 =>
    match resolve p a with
    | .error e => .error e
    | .ok k =>
      match resolveRange p (a + 1) n with
      | .error e => .error e
      | .ok ks => .ok (k :: ks)

/-- `MemRead(a, 1)` (R19). -/
def memRead (s : State) (a : Nat) : Except Fault Byte :=
  match resolve s.params.oob a with
  | .error e => .error e
  | .ok k => .ok (s.mem.read k)

/-- n bytes from `a` upward. -/
def readBytes (s : State) (a n : Nat) : Except Fault (List Byte) :=
  match resolveRange s.params.oob a n with
  | .error e => .error e
  | .ok ks => .ok (ks.map s.mem.read)

/-- Store bytes from `a` upward, every address checked before the first write (R204). -/
def writeBytes (s : State) (a : Nat) (bs : List Byte) : Except Fault State :=
  match resolveRange s.params.oob a bs.length with
  | .error e => .error e
  | .ok ks => .ok { s with mem := s.mem.writeAll (ks.zip bs) }

/-! ## Registers (10_state.md R21, R24, R25) -/

/-- `V[x]`. -/
def State.reg (s : State) (x : RegIdx) : Byte := s.v[x.toNat]'x.isLt

/-- `V[x] <- b`. -/
def State.setReg (s : State) (x : RegIdx) (b : Byte) : State :=
  { s with v := s.v.set x.toNat b x.isLt }

/-- Register 15, VF (R21). -/
abbrev vf : RegIdx := 15#4

/-- A result and a flag, the flag last: "the flag write is the one that remains" (R23, D8). -/
def State.setResultAndFlag (s : State) (x : RegIdx) (r f : Byte) : State :=
  (s.setReg x r).setReg vf f

/-- V0, V1, ... from a list of bytes; the registers past its end keep their values (R207). -/
def State.setRegsFromV0 (s : State) (bs : List Byte) : State :=
  { s with v := s.v.mapIdx fun j old => bs.getD j old }

/-- V0 to V[x] as bytes (R206). -/
def State.regsUpTo (s : State) (x : RegIdx) : List Byte := s.v.toList.take (x.toNat + 1)

/-- `I <- w`. -/
def State.setI (s : State) (w : Word) : State := { s with i := w }

/-- `pc <- w`. -/
def State.setPc (s : State) (w : Word) : State := { s with pc := w }

/-- `pc <- (pc + 2) mod 65536` (R25). -/
def State.advance (s : State) : State := s.setPc (s.pc + 2#16)

/-- The address of the instruction whose execution has advanced pc: `ia` with
`pc = (ia + 2) mod 65536` (00_scope.md R20, log 11). -/
def State.instrAddr (s : State) : Word := s.pc - 2#16

/-- Skip the next word when the condition holds (R20, 41_control_flow.md R138). -/
def State.skipIf (s : State) (c : Bool) : State := if c then s.advance else s

/-! ## The call stack (10_state.md R29 to R32) -/

/-- The depth `sp`. -/
def State.sp (s : State) : Nat := s.stack.length

/-- `stack[k]`, `stack[0]` the oldest entry. -/
def State.stackEntry (s : State) (k : Nat) : Option Word := s.stack.reverse[k]?

/-- `Push(w)` (R30). A depth above 16 is no state of the machine; it overflows too. -/
def push (s : State) (w : Word) : Except Fault State :=
  if Config.stackDepth ≤ s.sp then .error .stackOverflow
  else .ok { s with stack := w :: s.stack }

/-- `Pop()` (R31). -/
def pop (s : State) : Except Fault (Word × State) :=
  match s.stack with
  | [] => .error .stackUnderflow
  | w :: rest => .ok (w, { s with stack := rest })

/-! ## The keypad (10_state.md R36, 40_step_cycle.md R115, R117) -/

/-- `keys[k]`. -/
def State.key (s : State) (k : KeyIdx) : Bool := s.keys[k.toNat]'k.isLt

/-- `keys_prev[k]`. -/
def State.keyPrev (s : State) (k : KeyIdx) : Bool := s.keysPrev[k.toNat]'k.isLt

/-- The sixteen keys, lowest first. -/
def allKeys : List KeyIdx := [0, 1, 2, 3, 4, 5, 6, 7, 8, 9, 10, 11, 12, 13, 14, 15]

/-- The press-edge set `E`, lowest key first (R117). -/
def State.pressEdges (s : State) : List KeyIdx := allKeys.filter fun k => s.key k && !s.keyPrev k

/-- `min(E)`, none when `E` is empty (R118, R255). -/
def State.firstEdge (s : State) : Option KeyIdx := s.pressEdges.head?

/-- The commit: `keys_prev <- keys` (R115). -/
def State.commitKeys (s : State) : State := { s with keysPrev := s.keys }

/-- A key's index as a register value, 0x00 to 0x0F (R255). -/
def keyByte (k : KeyIdx) : Byte := k.setWidth 8

/-! ## Timers, mode (10_state.md R27, R35) -/

/-- `DT <- b`. -/
def State.setDt (s : State) (b : Byte) : State := { s with dt := b }

/-- `ST <- b`. -/
def State.setSt (s : State) (b : Byte) : State := { s with st := b }

/-- `mode <- m`. -/
def State.setMode (s : State) (m : Mode) : State := { s with mode := m }

/-! ## The random source (45_random_input_timers.md R250) -/

/-- `Draw8()`: a substituted value if one is pending, else the next free value. One value is drawn,
whichever it is (R250, D22, log 2). -/
def draw8 (s : State) : Byte × State :=
  match s.rngPending with
  | b :: rest => (b, { s with rngPending := rest })
  | [] => (Config.freeDraw s.rngDrawn, { s with rngDrawn := s.rngDrawn + 1 })

/-! ## The framebuffer (10_state.md R33, 44_display.md R230 to R233) -/

/-- `fb[y][x]`; off outside the screen. -/
def pixel (fb : Framebuffer) (x y : Nat) : Bool :=
  match fb[y]? with
  | some row => (row[x]?).getD false
  | none => false

/-- The screen with every pixel off (R230). -/
def blankScreen : Framebuffer := Vector.replicate 32 (Vector.replicate 64 false)

/-- The pixels one row byte places: bit 7 leftmost, a bit of 0 and a pixel past column 63 or row 31
left out (R232, R233). -/
def placedRow (x0 y : Nat) (row : Byte) : List (Nat × Nat) :=
  ((List.range 8).filter fun b => row.getLsbD (7 - b) && decide (x0 + b < Config.dispW)
    && decide (y < Config.dispH)).map fun b => (x0 + b, y)

/-- The pixels a sprite at (x0, y0) places, top row first (R232). -/
def placed (x0 y0 : Nat) : List Byte → List (Nat × Nat)
  | [] => []
  | row :: rows => placedRow x0 y0 row ++ placed x0 (y0 + 1) rows

/-- Every placed pixel flipped, every other one kept (R233). -/
def xorPixels (fb : Framebuffer) (ps : List (Nat × Nat)) : Framebuffer :=
  fb.mapIdx fun y row => row.mapIdx fun x on => on ^^ ps.contains (x, y)

/-- The collision bit: some placed pixel was on, so that its flip turns it off (R233). -/
def collides (fb : Framebuffer) (ps : List (Nat × Nat)) : Bool := ps.any fun p => pixel fb p.1 p.2

/-- `draw_sprite(x, y, rows)`: origin wrap, placement, XOR, collision (R230 to R233). -/
def drawSprite (fb : Framebuffer) (x y : Nat) (rows : List Byte) : Framebuffer × Bool :=
  let ps := placed (x % Config.dispW) (y % Config.dispH) rows
  (xorPixels fb ps, collides fb ps)

/-- A changed screen, and the dirty flag set (R34). -/
def State.setScreen (s : State) (fb : Framebuffer) : State := { s with fb := fb, dirty := true }

end Sys2Proof.Machine
end

