-- ==== Sys2Proof/Machine/Cycle.lean ====
section
/-! DEFINITION. The parts of the step around execute: fetch and the poll of the key wait
(40_step_cycle.md R111, R118), and laying a word into memory where the next fetch reads it. -/

namespace Sys2Proof.Machine

/-- The word at `ia = pc`, high byte first, both bytes through the address check (R111). -/
def fetch (s : State) : Except Fault Word :=
  match memRead s s.pc.toNat with
  | .error e => .error e
  | .ok hi =>
    match memRead s (s.pc.toNat + 1) with
    | .error e => .error e
    | .ok lo => .ok (wordOfBytes hi lo)

/-- One poll in mode AwaitingKey(x), without its commit: no fetch, no memory access (R118). -/
def pollKey (x : RegIdx) (s : State) : State :=
  match s.firstEdge with
  | some k => ((s.setReg x (keyByte k)).advance).setMode .running
  | none => s

/-- The last action of a step that completes: the commit (R115). An error passes, with no state. -/
def commit (r : Result) : Result :=
  match r with
  | .next t => .next t.commitKeys
  | .fault e => .fault e
  | .refused q => .refused q

/-- Where a word can be fetched: pc if both of its bytes can, else PROG_START. -/
def fetchableAddr (s : State) : Word :=
  if resolveRange s.params.oob s.pc.toNat 2 matches .ok _ then s.pc else BitVec.ofNat 16 Config.progStart

/-- The memory with a word's two bytes at address a, where the fetch reads them. -/
def placeWord (s : State) (a : Word) (w : Word) : Memory :=
  match resolveRange s.params.oob a.toNat 2 with
  | .ok ks => s.mem.writeAll (ks.zip (bytesOfWord w))
  | .error _ => s.mem

end Sys2Proof.Machine
end

