-- ==== Sys2Proof/Machine/Flags.lean ====
section
/-! DEFINITION. The values VF takes as a flag: carry, not-borrow, the bit shifted out, collision
(10_state.md R22, 42_alu.md R166 to R170, 44_display.md R235). Each is 0 or 1. -/

namespace Sys2Proof.Machine

/-- A one-bit flag as VF holds it. -/
def flagByte (c : Bool) : Byte := if c then 1#8 else 0#8

/-- Carry out of bit 7 of `a + b` (R166). -/
def carry (a b : Byte) : Byte := flagByte (decide (255 < a.toNat + b.toNat))

/-- Not-borrow of `a - b`, equality included (R167, R169). -/
def notBorrow (a b : Byte) : Byte := flagByte (decide (b.toNat ≤ a.toNat))

/-- Old bit 0, shifted out by SHR (R168). -/
def shiftedOutLow (a : Byte) : Byte := a &&& 0x01#8

/-- Old bit 7, shifted out by SHL (R170). -/
def shiftedOutHigh (a : Byte) : Byte := a >>> 7

end Sys2Proof.Machine
end

