-- ==== Sys2Proof/Machine/Alu.lean ====
section
/-! DEFINITION. Register/immediate operations and family 8 (42_alu.md). Both operands are read before
either write (40_step_cycle.md R114); where there is a flag it is written after the result (R172). -/

namespace Sys2Proof.Machine

/-- LD Vx, nn (R160). -/
def execLdImm (x : RegIdx) (nn : Byte) (s : State) : Result := .next (s.setReg x nn)

/-- ADD Vx, nn: modulo 256, no flag (R161, D6). -/
def execAddImm (x : RegIdx) (nn : Byte) (s : State) : Result := .next (s.setReg x (s.reg x + nn))

/-- LD Vx, Vy (R162). -/
def execLdReg (x y : RegIdx) (s : State) : Result := .next (s.setReg x (s.reg y))

/-- OR Vx, Vy: VF not written (R163, D7). -/
def execOrReg (x y : RegIdx) (s : State) : Result := .next (s.setReg x (s.reg x ||| s.reg y))

/-- AND Vx, Vy: VF not written (R164, D7). -/
def execAndReg (x y : RegIdx) (s : State) : Result := .next (s.setReg x (s.reg x &&& s.reg y))

/-- XOR Vx, Vy: VF not written (R165, D7). -/
def execXorReg (x y : RegIdx) (s : State) : Result := .next (s.setReg x (s.reg x ^^^ s.reg y))

/-- ADD Vx, Vy: VF = carry (R166). -/
def execAddReg (x y : RegIdx) (s : State) : Result :=
  .next (s.setResultAndFlag x (s.reg x + s.reg y) (carry (s.reg x) (s.reg y)))

/-- SUB Vx, Vy: VF = not-borrow (R167). -/
def execSubReg (x y : RegIdx) (s : State) : Result :=
  .next (s.setResultAndFlag x (s.reg x - s.reg y) (notBorrow (s.reg x) (s.reg y)))

/-- SHR Vx: VF = old bit 0; Vy is never read (R168, R173). -/
def execShr (x _y : RegIdx) (s : State) : Result :=
  .next (s.setResultAndFlag x (s.reg x >>> 1) (shiftedOutLow (s.reg x)))

/-- SUBN Vx, Vy: `Vy - Vx`, VF = not-borrow (R169). -/
def execSubnReg (x y : RegIdx) (s : State) : Result :=
  .next (s.setResultAndFlag x (s.reg y - s.reg x) (notBorrow (s.reg y) (s.reg x)))

/-- SHL Vx: VF = old bit 7; Vy is never read (R170, R173). -/
def execShl (x _y : RegIdx) (s : State) : Result :=
  .next (s.setResultAndFlag x (s.reg x <<< 1) (shiftedOutHigh (s.reg x)))

end Sys2Proof.Machine
end

