-- ==== Sys2Proof/Machine/Operands.lean ====
section
/-! DEFINITION. The operand forms: immediates zero-extended, never sign-extended or scaled
(30_encoding.md R84), the implicit I base (43_index_memory.md R204), and the values instructions
compute from a register as an operand. -/

namespace Sys2Proof.Machine

/-- An address operand, `zext_16(NNN)` (R84). -/
def addrOperand (nnn : Addr) : Word := nnn.setWidth 16

/-- The first address of a memory instruction, `I + 0` as an unbounded integer (R204). -/
def State.base (s : State) : Nat := s.i.toNat

/-- The key a register value names: its low nibble (45_random_input_timers.md R251, D16). -/
def keyOperand (b : Byte) : KeyIdx := b.setWidth 4

/-- `FONT_BASE + 5 * (V[X] & 0x0F)` (R202, D11). -/
def glyphAddr (b : Byte) : Word := BitVec.ofNat 16 (fontBase + glyphBytes * (b &&& 0x0F#8).toNat)

/-- The register JP V0, nnn adds: V0, or V[w[11:8]] under JUMP_OFFSET_MODE = VX (R139). -/
def offsetReg (p : JumpOffsetMode) (nnn : Addr) : RegIdx :=
  match p with
  | .v0 => 0x0#4
  | .vx => nnn.extractLsb' 8 4

/-- The three decimal digits of a byte, hundreds first (R205). -/
def bcdDigits (b : Byte) : List Byte :=
  [BitVec.ofNat 8 (b.toNat / 100), BitVec.ofNat 8 (b.toNat / 10 % 10), BitVec.ofNat 8 (b.toNat % 10)]

end Sys2Proof.Machine
end

