-- ==== Sys2Proof/Machine/ControlFlow.lean ====
section
/-! DEFINITION. SYS, RET, JP, CALL, the conditional skips, JP V0 (41_control_flow.md). Every meaning
is given the state with pc advanced (40_step_cycle.md R112). -/

namespace Sys2Proof.Machine

/-- SYS nnn: no operation (R130, D5); SYS_POLICY = unknown never decodes to it. -/
def execSys (_nnn : Addr) (s : State) : Result := .next s

/-- RET: `pc <- Pop()` (R131). -/
def execRet (s : State) : Result := onOk (pop s) fun r => .next (r.2.setPc r.1)

/-- JP nnn: `pc <- zext_16(NNN)` (R132). -/
def execJp (nnn : Addr) (s : State) : Result := .next (s.setPc (addrOperand nnn))

/-- CALL nnn: `Push(pc); pc <- zext_16(NNN)` (R133). -/
def execCall (nnn : Addr) (s : State) : Result :=
  onOk (push s s.pc) fun t => .next (t.setPc (addrOperand nnn))

/-- SE Vx, nn (R134). -/
def execSeImm (x : RegIdx) (nn : Byte) (s : State) : Result := .next (s.skipIf (s.reg x == nn))

/-- SNE Vx, nn (R135). -/
def execSneImm (x : RegIdx) (nn : Byte) (s : State) : Result := .next (s.skipIf (s.reg x != nn))

/-- SE Vx, Vy (R136). -/
def execSeReg (x y : RegIdx) (s : State) : Result := .next (s.skipIf (s.reg x == s.reg y))

/-- SNE Vx, Vy (R137). -/
def execSneReg (x y : RegIdx) (s : State) : Result := .next (s.skipIf (s.reg x != s.reg y))

/-- JP V0, nnn: `pc <- (zext_16(NNN) + V[0]) mod 65536`, or V[X] by JUMP_OFFSET_MODE (R139, D9). -/
def execJpV0 (nnn : Addr) (s : State) : Result :=
  .next (s.setPc (addrOperand nnn + (s.reg (offsetReg s.params.jump nnn)).setWidth 16))

end Sys2Proof.Machine
end

