-- ==== Sys2Proof/Machine/Display.lean ====
section
/-! DEFINITION. CLS and DRW (44_display.md), and R235's loop over the sprite's bits as the spec writes
it, which no meaning calls: a statement says that `drawSprite` gives the same (log 10). -/

namespace Sys2Proof.Machine

/-- CLS: every pixel off, dirty set, VF not written (R234). -/
def execCls (s : State) : Result := .next (s.setScreen blankScreen)

/-- DRW Vx, Vy, n: all n bytes read and checked before a pixel changes; then the sprite is drawn, dirty
set, VF the collision bit (R235). -/
def execDrw (x y : RegIdx) (n : Nibble) (s : State) : Result :=
  onOk (readBytes s s.base n.toNat) fun rows =>
    let d := drawSprite s.fb (s.reg x).toNat (s.reg y).toNat rows
    .next ((s.setScreen d.1).setReg vf (flagByte d.2))

/-! ## The loop of R235 -/

/-- `fb[y][x] <- on`. -/
def setPixel (fb : Framebuffer) (x y : Nat) (on : Bool) : Framebuffer :=
  match fb[y]? with
  | some row => fb.setIfInBounds y (row.setIfInBounds x on)
  | none => fb

/-- The loop's body for bit b of a row byte, at row py of the screen, over (fb, c). -/
def drawBit (x0 py : Nat) (row : Byte) (acc : Framebuffer × Bool) (b : Nat) : Framebuffer × Bool :=
  let px := x0 + b
  if px < Config.dispW ∧ py < Config.dispH ∧ (row >>> (7 - b)) &&& 1#8 = 1#8 then
    (setPixel acc.1 px py (pixel acc.1 px py ^^ true), if pixel acc.1 px py then true else acc.2)
  else acc

/-- `for r in 0..N-1, for b in 0..7` over (fb, c) (R235). -/
def drawLoop (x0 y0 : Nat) : List Byte → Framebuffer × Bool → Framebuffer × Bool
  | [], acc => acc
  | row :: rows, acc => drawLoop x0 (y0 + 1) rows ((List.range 8).foldl (drawBit x0 y0 row) acc)

end Sys2Proof.Machine
end

