-- ==== Sys2Proof/Machine/IndexMemory.lean ====
section
/-! DEFINITION. Setting I, and the memory instructions through I (43_index_memory.md). None changes I
as a side effect of an access (R204, R208). -/

namespace Sys2Proof.Machine

/-- LD I, nnn (R200). -/
def execLdI (nnn : Addr) (s : State) : Result := .next (s.setI (addrOperand nnn))

/-- ADD I, Vx: modulo 65536, VF not written (R201, D10). -/
def execAddI (x : RegIdx) (s : State) : Result := .next (s.setI (s.i + (s.reg x).setWidth 16))

/-- LD F, Vx: the glyph's address; no memory access (R202). -/
def execLdF (x : RegIdx) (s : State) : Result := .next (s.setI (glyphAddr (s.reg x)))

/-- LD B, Vx: three decimal digits at I, I + 1, I + 2 (R205). -/
def execLdB (x : RegIdx) (s : State) : Result :=
  onOk (writeBytes s s.base (bcdDigits (s.reg x))) fun t => .next t

/-- LD [I], Vx: V0 to V[x] at I upward (R206). -/
def execLdMemVx (x : RegIdx) (s : State) : Result :=
  onOk (writeBytes s s.base (s.regsUpTo x)) fun t => .next t

/-- LD Vx, [I]: V0 to V[x] from I upward (R207). -/
def execLdVxMem (x : RegIdx) (s : State) : Result :=
  onOk (readBytes s s.base (x.toNat + 1)) fun bs => .next (s.setRegsFromV0 bs)

end Sys2Proof.Machine
end

