-- ==== Sys2Proof/Machine/Input.lean ====
section
/-! DEFINITION. RND, the key skips, the blocking key wait, the timer transfers
(45_random_input_timers.md). -/

namespace Sys2Proof.Machine

/-- RND Vx, nn: one draw under the mask; the draw is a free value (R250, D22, log 2). -/
def execRnd (x : RegIdx) (nn : Byte) (s : State) : Result :=
  .next ((draw8 s).2.setReg x ((draw8 s).1 &&& nn))

/-- SKP Vx (R252). -/
def execSkp (x : RegIdx) (s : State) : Result := .next (s.skipIf (s.key (keyOperand (s.reg x))))

/-- SKNP Vx (R253). -/
def execSknp (x : RegIdx) (s : State) : Result := .next (s.skipIf (!s.key (keyOperand (s.reg x))))

/-- LD Vx, DT (R257). -/
def execLdVxDt (x : RegIdx) (s : State) : Result := .next (s.setReg x s.dt)

/-- LD Vx, K: the lowest key with a press edge, or else the wait with pc held at `ia` (R255, D17). -/
def execLdVxK (x : RegIdx) (s : State) : Result :=
  match s.firstEdge with
  | some k => .next (s.setReg x (keyByte k))
  | none => .next ((s.setMode (.awaitingKey x)).setPc s.instrAddr)

/-- LD DT, Vx (R258). -/
def execLdDtVx (x : RegIdx) (s : State) : Result := .next (s.setDt (s.reg x))

/-- LD ST, Vx (R259). -/
def execLdStVx (x : RegIdx) (s : State) : Result := .next (s.setSt (s.reg x))

end Sys2Proof.Machine
end

