-- ==== Sys2Proof/Machine/Step.lean ====
section
/-! DEFINITION. `step()`: fetch, advance, decode, execute, commit; or one poll of the key wait
(40_step_cycle.md R110 to R120). An error answers `fault` and no state, so the caller's state is the
pre-step state (R116, log 3). -/

namespace Sys2Proof.Machine

/-- The whole step (R120). -/
def step (s : State) : Host.Outcome State Fault Refusal :=
  match s.mode with
  | .awaitingKey x => .next (pollKey x s).commitKeys
  | .running =>
    match fetch s with
    | .error e => raise e
    | .ok w =>
      match decodeWord s.params.sys w with
      | .unknown u => raise (.decodeUnknown u)
      | .op i => commit (exec i s.advance)

/-- s with an instruction word stored where the next step fetches it (log 4): its two bytes at pc,
high byte first, and the mode Running, without which no step fetches. A pc from which no word can be
fetched is moved to PROG_START. -/
def State.withFetchWord (s : State) (nbits w : Nat) : State :=
  let a := fetchableAddr s
  { s with mem := placeWord s a (tableWord nbits w), pc := a, mode := .running }

end Sys2Proof.Machine
end

