-- ==== Sys2Proof/Machine/Transactions.lean ====
section
/-! DEFINITION. The host's transactions (60_exceptions.md R290 to R299), each one indivisible, and a
run as any list of them (R300). A transaction's error is a reply, with the state unchanged; a
transaction with arguments outside the interface is refused (D32). -/

namespace Sys2Proof.Machine

/-- What the host may inspect without changing any state: the list of R298, and the state its decision
D27 ("a read-only inspection of all state") reaches beside it. The framebuffer is read by `isSet` and
`snapshot` (R296). -/
inductive Query where
  | reg (x : RegIdx)
  | index
  | pc
  | dt
  | st
  | mode
  /-- the depth `sp` (R32) -/
  | depth
  /-- the top entry, `stack[sp - 1]` (R32); at depth 0 log 34 -/
  | peek
  /-- `mem[a]`; from 4096 on log 36 -/
  | byte (a : Nat)
  /-- `stack[k]`, `stack[0]` the oldest (R29, D27); from sp on log 35 -/
  | entry (k : Nat)
  /-- the dirty flag, which the read does not clear (R34, D27) -/
  | dirty
  /-- `keys[k]` (R36, D27) -/
  | key (k : KeyIdx)
  /-- `keys_prev[k]` (R36, D27) -/
  | keyPrev (k : KeyIdx)
  deriving DecidableEq, Repr

/-- The transactions of R291 to R299. -/
inductive Transaction where
  /-- `step()` (R291) -/
  | step
  /-- `tick_timers()` (R292) -/
  | tickTimers
  /-- `set_key(k, p)` (R293) -/
  | setKey (k : Nat) (p : Bool)
  /-- `load(bytes)` (R294) -/
  | load (bytes : List Byte)
  /-- `take_dirty()` (R295) -/
  | takeDirty
  /-- `is_set(x, y)` (R296) -/
  | isSet (x y : Nat)
  /-- the bulk snapshot accessor (R296) -/
  | snapshot
  /-- `sound_active()` (R297) -/
  | soundActive
  /-- inspection (R298) -/
  | inspect (q : Query)
  /-- `set_pc(v)` (R299) -/
  | setPc (v : Word)
  deriving DecidableEq, Repr

/-- What a transaction returns. -/
inductive Reply where
  /-- `Ok`, or nothing returned -/
  | done
  /-- `Err(e)` -/
  | err (e : Fault)
  | bit (b : Bool)
  | pixels (ps : List Bool)
  | byte (b : Byte)
  | word (w : Word)
  | depth (n : Nat)
  /-- the top entry; none at depth 0 (log 34) -/
  | top (w : Option Word)
  | mode (m : Mode)
  deriving DecidableEq, Repr

/-- Down by one if nonzero: "floor at 0, never negative" (R28, R292). -/
def tickDown (b : Byte) : Byte := if b = 0#8 then 0#8 else b - 1#8

/-- `tick_timers()` (R292). -/
def State.tickTimers (s : State) : State := { s with dt := tickDown s.dt, st := tickDown s.st }

/-- `set_key(k, p)` for a key k (R293). -/
def State.pressKey (s : State) (k : KeyIdx) (p : Bool) : State :=
  { s with keys := s.keys.set k.toNat p k.isLt }

/-- Addresses 0x200 upward with the bytes of a program. -/
def romCells (bytes : List Byte) : List (Nat × Byte) :=
  (List.range' Config.progStart bytes.length).zip bytes

/-- `load(bytes)` (R294, R285). -/
def load (s : State) (bytes : List Byte) : Except Fault State :=
  if Config.maxRom < bytes.length then .error .loadError
  else .ok { s with mem := s.mem.writeAll (romCells bytes) }

/-- `sound_active()` (R297). -/
def State.soundActive (s : State) : Bool := s.st != 0#8

/-- The bulk snapshot, row-major (R296). -/
def State.snapshot (s : State) : List Bool := s.fb.toList.flatMap Vector.toList

/-- One inspection (R298, D27). DESIGN CHOICE at three points the spec leaves open: a peek at depth 0
replies `top none` (log 34), an entry at sp or above, which is "not observable" (R29), is refused
(log 35), and a memory byte from 4096 on, which does not exist, is refused (log 36). -/
def inspect (s : State) : Query → Except Refusal Reply
  | .reg x => .ok (.byte (s.reg x))
  | .index => .ok (.word s.i)
  | .pc => .ok (.word s.pc)
  | .dt => .ok (.byte s.dt)
  | .st => .ok (.byte s.st)
  | .mode => .ok (.mode s.mode)
  | .depth => .ok (.depth s.sp)
  | .peek => .ok (.top s.stack.head?)
  | .byte a => if a < Config.memSize then .ok (.byte (s.mem.read a)) else .error (.byteOutOfRange a)
  | .entry k =>
    match s.stackEntry k with
    | some w => .ok (.word w)
    | none => .error (.entryOutOfRange k)
  | .dirty => .ok (.bit s.dirty)
  | .key k => .ok (.bit (s.key k))
  | .keyPrev k => .ok (.bit (s.keyPrev k))

/-- One transaction: the state after it and its reply. -/
def transact (s : State) : Transaction → Except Refusal (State × Reply)
  | .step =>
    match step s with
    | .next t => .ok (t, .done)
    | .fault e => .ok (s, .err e)
    | .refused q => .error q
  | .tickTimers => .ok (s.tickTimers, .done)
  | .setKey k p =>
    if k < 16 then .ok (s.pressKey (BitVec.ofNat 4 k) p, .done) else .error (.keyOutOfRange k)
  | .load bytes =>
    match load s bytes with
    | .ok t => .ok (t, .done)
    | .error e => .ok (s, .err e)
  | .takeDirty => .ok ({ s with dirty := false }, .bit s.dirty)
  | .isSet x y =>
    if x < Config.dispW ∧ y < Config.dispH then .ok (s, .bit (pixel s.fb x y))
    else .error (.pixelOutOfRange x y)
  | .snapshot => .ok (s, .pixels s.snapshot)
  | .soundActive => .ok (s, .bit s.soundActive)
  | .inspect q =>
    match inspect s q with
    | .ok r => .ok (s, r)
    | .error e => .error e
  | .setPc v => .ok (s.setPc v, .done)

/-- A run of the host: any list of transactions, in order (R300). A refused one is no move, and ends
the run with its reason. -/
def hostRun : List Transaction → State → Except Refusal (State × List Reply)
  | [], s => .ok (s, [])
  | t :: ts, s =>
    match transact s t with
    | .error q => .error q
    | .ok (s', r) =>
      match hostRun ts s' with
      | .error q => .error q
      | .ok (s'', rs) => .ok (s'', r :: rs)

end Sys2Proof.Machine
end

