-- ==== Sys2Proof/Safety.lean ====
section
/-! DEFINITION. The terms claims use: the invariant of the machine, when an access is in bounds, and
which registers an instruction writes. -/

namespace Sys2Proof.Machine

/-- What every reachable state keeps: at most 16 stack entries (10_state.md R29) and memory in its
canonical form, inside [0, 4096) (20_memory.md R64). -/
abbrev State.Inv (s : State) : Prop := s.stack.length ≤ Config.stackDepth ∧ s.mem.wf

/-- n accesses from a upward raise nothing: none at all, or none out of range, or OOB_POLICY = wrap
(R64). -/
abbrev InBounds (p : OobPolicy) (a n : Nat) : Prop := n = 0 ∨ a + n ≤ Config.memSize ∨ p = .wrap

/-- The first address of a, a + 1, ... that is out of range (R65). -/
abbrev firstOutside (a : Nat) : Nat := max a Config.memSize

/-- t is s with b in V[x] and nothing else changed (pc is the advanced one in both). -/
abbrev RegWritten (s t : State) (x : RegIdx) (b : Byte) : Prop :=
  t.reg x = b ∧ (∀ z, z ≠ x → t.reg z = s.reg z) ∧ t = { s with v := t.v }

/-- t is s with the result r in V[x] and the flag f in VF, the flag remaining when x is 15 (R23), and
nothing else changed. -/
abbrev ResultAndFlag (s t : State) (x : RegIdx) (r f : Byte) : Prop :=
  t.reg 15#4 = f ∧ (x ≠ 15#4 → t.reg x = r) ∧ (∀ z, z ≠ x → z ≠ 15#4 → t.reg z = s.reg z) ∧
    t = { s with v := t.v }

/-- The key k is in the press-edge set E (R117). -/
abbrev PressEdge (s : State) (k : KeyIdx) : Prop := s.key k = true ∧ s.keyPrev k = false

/-- k is min(E) (R118). -/
abbrev LeastEdge (s : State) (k : KeyIdx) : Prop := PressEdge s k ∧ ∀ j, PressEdge s j → k ≤ j

/-- The sprite of DRW Vx, Vy, n has a bit 1 for the pixel at column px, row py: bit 7 - b of the byte
at I + r, b columns right of and r rows below the wrapped origin (R231, R232, R235). -/
abbrev SpriteOn (s : State) (x y : RegIdx) (n : Nibble) (px py : Nat) : Prop :=
  ∃ r b a, r < n.toNat ∧ b < 8 ∧ px = (s.reg x).toNat % 64 + b ∧ py = (s.reg y).toNat % 32 + r ∧
    resolve s.params.oob (s.i.toNat + r) = .ok a ∧ (s.mem.read a).getLsbD (7 - b) = true

/-- A visible pixel of the sprite is on before the draw, so that the draw turns it off (R233). -/
abbrev SpriteCollides (s : State) (x y : RegIdx) (n : Nibble) : Prop :=
  ∃ px py, px < 64 ∧ py < 32 ∧ SpriteOn s x y n px py ∧ pixel s.fb px py = true

/-- A function on the next state, if there is one. -/
abbrev mapNext (f : State → State) (r : Host.Outcome State Fault Refusal) :
    Host.Outcome State Fault Refusal :=
  match r with
  | .next t => .next (f t)
  | .fault e => .fault e
  | .refused q => .refused q

/-- The general registers an instruction writes: its named destination, and VF for the six flag
writers (10_state.md R22). -/
abbrev writesReg (i : Instr) (z : RegIdx) : Bool :=
  match i with
  | .ldImm x _ | .addImm x _ | .ldReg x _ | .orReg x _ | .andReg x _ | .xorReg x _ | .rnd x _
  | .ldVxDt x | .ldVxK x => z == x
  | .addReg x _ | .subReg x _ | .shr x _ | .subnReg x _ | .shl x _ => z == x || z == 15#4
  | .drw _ _ _ => z == 15#4
  | .ldVxMem x => decide (z.toNat ≤ x.toNat)
  | .sys _ | .cls | .ret | .jp _ | .call _ | .seImm _ _ | .sneImm _ _ | .seReg _ _ | .sneReg _ _
  | .ldI _ | .jpV0 _ | .skp _ | .sknp _ | .ldDtVx _ | .ldStVx _ | .addI _ | .ldF _ | .ldB _
  | .ldMemVx _ => false

end Sys2Proof.Machine
end

