-- ==== Sys2Proof/Certificates/Slice0/Obligations.lean ====
section
/-! DEFINITION. The statements for the provers, one definition each, listed in OBLIGATIONS.json. A state
given to exec is the one with pc advanced past the instruction (40_step_cycle.md R112), so that "pc
unchanged" means the advanced pc. -/

open Sys2Proof Sys2Proof.Machine

/-- After reset every general register is 0, I is 0, pc is 0x200, the stack is empty, DT and ST are
0, every pixel is off, dirty is 0, the mode is Running, no key is pressed in keys or keys_prev, and
the parameters have their defaults. The values of I, dirty, mode, keys and keys_prev are the spec's
decision D19 (log 8), and the parameter defaults fault, nop and V0 its decisions D2, D5 and D9 (R16,
log 13). Nothing is said of the model's own fields for the random source (log 2).
(70_reset_and_hazards.md section 1, 00_scope.md section 3, 92_eei_decisions.md D2, D5, D9, D19) -/
def Obligations.ResetState : Prop :=
  (∀ x : RegIdx, State.reset.reg x = 0#8) ∧ State.reset.i = 0#16 ∧ State.reset.pc = 0x200#16 ∧
  State.reset.sp = 0 ∧ State.reset.dt = 0#8 ∧ State.reset.st = 0#8 ∧
  (∀ px py : Nat, pixel State.reset.fb px py = false) ∧ State.reset.dirty = false ∧
  State.reset.mode = .running ∧ (∀ k : KeyIdx, State.reset.key k = false ∧ State.reset.keyPrev k = false) ∧
  State.reset.params = ⟨.fault, .nop, .v0⟩

/-- Under every parameter value, byte FONT_BASE + k of the constructed machine's memory is font byte
k for k in 0..79, there are 80 font bytes, and every other byte is 0. The place 0x050 is the spec's
decision D11 (00_scope.md R14, log 21), and the values of the font bytes are its general knowledge
(D12, log 6). (20_memory.md section 4, 10_state.md section 9, 00_scope.md section 3,
92_eei_decisions.md D11, D12) -/
def Obligations.MemoryAfterConstruction : Prop :=
  ∀ (p : Params) (a : Nat), fontData.length = 80 ∧
    (∀ k, k < 80 → (State.construct p).mem.read (0x050 + k) = fontData.getD k 0#8) ∧
    ((a < 0x050 ∨ 0x0A0 ≤ a) → (State.construct p).mem.read a = 0#8)

/-- Under every parameter value the state after construction has at most 16 stack entries and memory
in canonical form. (70_reset_and_hazards.md section 1) -/
def Obligations.ResetMeetsInvariant : Prop :=
  ∀ p : Params, (State.construct p).Inv

/-- For every state that meets the invariant (at most 16 stack entries; memory a strictly rising
list of cells inside [0, 4096), none equal to the reset contents), if step answers a next state,
that state meets it too: the stack never grows past 16 and no step writes outside [0, 4096).
(10_state.md section 5, 20_memory.md section 2) -/
def Obligations.StepKeepsInvariant : Prop :=
  ∀ s t : State, s.Inv → step s = .next t → t.Inv

/-- For every list of host transactions (steps, ticks, key changes, loads of any length,
observations, set_pc, in any order) and every state that meets the invariant, the state the run ends
in meets it. (60_exceptions.md section 3, 10_state.md section 5) -/
def Obligations.HostRunKeepsInvariant : Prop :=
  ∀ (ts : List Transaction) (s t : State) (rs : List Reply),
    s.Inv → hostRun ts s = .ok (t, rs) → t.Inv

/-- For every well-formed instruction with every operand value, the decoder reads the encoder's
word, and the byte decoder the encoder's two bytes with any bytes after them, as that instruction;
under SYS_POLICY = unknown this holds for every instruction but SYS. Opcode values are the spec's
general knowledge (D34, log 7). (30_encoding.md sections 1 to 4) -/
def Obligations.DecodeEncodeRoundTrip : Prop :=
  ∀ (p : SysPolicy) (i : Instr) (rest : List Byte), i.wellFormed = true →
    (p = .unknown → ∀ nnn, i ≠ .sys nnn) →
    decodeWord p (encode i) = .op i ∧ decodeBytes p (encodeBytes i ++ rest) = .ok (i, rest)

/-- If a word decodes to an operation, that operation is well formed and its encoding is the word:
no bit of a recognised word is dropped. If it decodes to Unknown, the Unknown carries the word
itself. That no bit is dropped rests on the model's syntax keeping the Y field of SHR and SHL, which
their meanings ignore and which the assembler form of R98 sets to 0 (DESIGN CHOICE, log 33); which
words are Unknown rests on the spec's decisions D31 (strict decoding, log 29), D5 (SYS, log 13) and
D34 (opcode values, log 7). (30_encoding.md sections 3 and 4, 92_eei_decisions.md D5, D31, D34) -/
def Obligations.EncodeDecodeRoundTrip : Prop :=
  ∀ (p : SysPolicy) (w : Word),
    (∀ i, decodeWord p w = .op i → i.wellFormed = true ∧ encode i = w) ∧
    (∀ u, decodeWord p w = .unknown u → u = w)

/-- Under the default SYS_POLICY a word decodes to an operation only if it matches that operation's
row of the opcode table (word AND mask = value, SYS's row leaving out the words of CLS and RET), and
it is Unknown exactly if it matches no row; the table has 35 rows, and no word matches two of them.
Opcode values (D34, log 7), strict decoding (D31, log 29) and SYS as an operation (D5, log 13) are
the spec's own choices. (30_encoding.md sections 3, 4 and 6, opcode_table.json, 92_eei_decisions.md
D5, D31, D34) -/
def Obligations.DecoderMatchesOpcodeTable : Prop :=
  opcodeRows.length = 35 ∧ ∀ w : Word,
    (∀ i, decodeWord .nop w = .op i → i.row ∈ opcodeRows ∧ i.row.matchesWord w = true) ∧
    (decodeWord .nop w = .unknown w ↔ ∀ r ∈ opcodeRows, r.matchesWord w = false) ∧
    opcodeRows.Pairwise fun r q => ¬ (r.matchesWord w = true ∧ q.matchesWord w = true)

/-- At least one word of an operation of each of the sixteen families, and the strict-decoding words
of vectors CF-19, CF-22, AL-29, AL-30, RI-9 and RI-16, decode to the instructions their encodings
name, or to Unknown. Opcode values (D34, log 7), strict decoding (D31, log 29) and SYS as an
operation or Unknown by SYS_POLICY (D5, log 13) are the spec's own choices. (95_test_vectors.md L2,
30_encoding.md section 6, 92_eei_decisions.md D5, D31, D34) -/
def Obligations.SampleWordsDecode : Prop :=
  decodeWord .nop 0x0123#16 = .op (.sys 0x123#12) ∧ decodeWord .unknown 0x0123#16 = .unknown 0x0123#16 ∧
  decodeWord .nop 0x00E0#16 = .op .cls ∧ decodeWord .nop 0x00EE#16 = .op .ret ∧
  decodeWord .nop 0x1228#16 = .op (.jp 0x228#12) ∧ decodeWord .nop 0x2ABC#16 = .op (.call 0xABC#12) ∧
  decodeWord .nop 0x3310#16 = .op (.seImm 3#4 0x10#8) ∧ decodeWord .nop 0x43F1#16 = .op (.sneImm 3#4 0xF1#8) ∧
  decodeWord .nop 0x6A2F#16 = .op (.ldImm 10#4 0x2F#8) ∧ decodeWord .nop 0x7183#16 = .op (.addImm 1#4 0x83#8) ∧
  decodeWord .nop 0x9120#16 = .op (.sneReg 1#4 2#4) ∧ decodeWord .nop 0xA22A#16 = .op (.ldI 0x22A#12) ∧
  decodeWord .nop 0xB300#16 = .op (.jpV0 0x300#12) ∧ decodeWord .nop 0xC30F#16 = .op (.rnd 3#4 0x0F#8) ∧
  decodeWord .nop 0xE59E#16 = .op (.skp 5#4) ∧
  decodeWord .nop 0x5120#16 = .op (.seReg 1#4 2#4) ∧ decodeWord .nop 0x5121#16 = .unknown 0x5121#16 ∧
  decodeWord .nop 0x812E#16 = .op (.shl 1#4 2#4) ∧ decodeWord .nop 0x8128#16 = .unknown 0x8128#16 ∧
  decodeWord .nop 0x812F#16 = .unknown 0x812F#16 ∧ decodeWord .nop 0x912F#16 = .unknown 0x912F#16 ∧
  decodeWord .nop 0xD125#16 = .op (.drw 1#4 2#4 5#4) ∧ decodeWord .nop 0xE59F#16 = .unknown 0xE59F#16 ∧
  decodeWord .nop 0xF30A#16 = .op (.ldVxK 3#4) ∧ decodeWord .nop 0xF608#16 = .unknown 0xF608#16

/-- In mode Running, when the two bytes at pc and pc + 1 pass the address check and their word, high
byte first, decodes to i, the step is exec of i on the state with pc advanced by 2, and a next state
then has keys_prev set to keys. The commit is the spec's decision D18. (40_step_cycle.md sections 1
and 2, 92_eei_decisions.md D18) -/
def Obligations.StepRunsTheDecodedInstruction : Prop :=
  ∀ (s : State) (a b : Nat) (i : Instr), s.mode = .running →
    resolve s.params.oob s.pc.toNat = .ok a → resolve s.params.oob (s.pc.toNat + 1) = .ok b →
    decodeWord s.params.sys (s.mem.read a ++ s.mem.read b) = .op i →
    step s = mapNext (fun t => { t with keysPrev := t.keys }) (exec i { s with pc := s.pc + 2#16 })

/-- Under every OOB_POLICY: with pc below 4095 the fetched word has mem[pc] in bits 15..8 and mem[pc
+ 1] in bits 7..0. Under fault, pc of 4096 or more raises MemoryOutOfBounds(pc) and pc = 4095 raises
MemoryOutOfBounds(4096), in mode Running as the step's outcome too. Under wrap the bytes come from
mem[pc mod 4096] and mem[(pc + 1) mod 4096]. (R111) -/
def Obligations.FetchReadsBigEndianWord : Prop :=
  ∀ s : State,
    (s.pc.toNat < 4095 → fetch s = .ok (s.mem.read s.pc.toNat ++ s.mem.read (s.pc.toNat + 1))) ∧
    (s.params.oob = .wrap →
      fetch s = .ok (s.mem.read (s.pc.toNat % 4096) ++ s.mem.read ((s.pc.toNat + 1) % 4096))) ∧
    (s.params.oob = .fault → 4096 ≤ s.pc.toNat → fetch s = .error (.memoryOutOfBounds s.pc.toNat) ∧
      (s.mode = .running → step s = .fault (.memoryOutOfBounds s.pc.toNat))) ∧
    (s.params.oob = .fault → s.pc.toNat = 4095 → fetch s = .error (.memoryOutOfBounds 4096) ∧
      (s.mode = .running → step s = .fault (.memoryOutOfBounds 4096)))

/-- In mode Running, when the fetched word decodes to Unknown, the step raises DecodeError::Unknown
carrying the full word that was fetched, and the host's step transaction leaves the whole state, pc
at the word's address among it, as it was. (R281) -/
def Obligations.UnknownWordRaisesDecodeError : Prop :=
  ∀ (s : State) (w u : Word), s.mode = .running → fetch s = .ok w →
    decodeWord s.params.sys w = .unknown u →
    step s = .fault (.decodeUnknown w) ∧ transact s .step = .ok (s, .err (.decodeUnknown w))

/-- For every state and every well-formed instruction (but SYS under SYS_POLICY = unknown), after
its word is placed where the next step fetches, the step is exec of exactly that instruction on the
placed state with pc advanced, then the commit, which is the spec's decision D18 (log 28). Placing
the word changes memory, pc and mode alone: pc is kept when both bytes at pc pass the address check,
wrapped or not, and becomes 0x200 when they do not (the model's own placement, log 4).
(40_step_cycle.md section 1, 70_reset_and_hazards.md section 2, 92_eei_decisions.md D18) -/
def Obligations.EncodedInstructionRunsNext : Prop :=
  ∀ (s : State) (i : Instr), i.wellFormed = true → (s.params.sys = .unknown → ∀ nnn, i ≠ .sys nnn) →
    ∃ u : State, u = s.withFetchWord 16 (encode i).toNat ∧
      u = { s with mem := u.mem, pc := u.pc, mode := .running } ∧
      (InBounds s.params.oob s.pc.toNat 2 → u.pc = s.pc) ∧
      (¬ InBounds s.params.oob s.pc.toNat 2 → u.pc = 0x200#16) ∧
      step u = mapNext (fun t => { t with keysPrev := t.keys }) (exec i { u with pc := u.pc + 2#16 })

/-- In mode AwaitingKey(x): if k is the lowest key with a press edge, the step stores k in V[x],
advances pc by 2, returns to Running and commits the snapshot, changing nothing else; if there is no
press edge, the step changes keys_prev alone. Lowest key and commit are the spec's decisions D17 and
D18. (40_step_cycle.md section 1, 92_eei_decisions.md D17, D18) -/
def Obligations.AwaitingKeyPoll : Prop :=
  ∀ (x : RegIdx) (s : State), s.mode = .awaitingKey x →
    (∀ k, LeastEdge s k → ∃ t, step s = .next t ∧ t.reg x = BitVec.ofNat 8 k.toNat ∧
      (∀ z, z ≠ x → t.reg z = s.reg z) ∧
      t = { s with v := t.v, pc := s.pc + 2#16, mode := .running, keysPrev := s.keys }) ∧
    ((∀ k, ¬ PressEdge s k) → step s = .next { s with keysPrev := s.keys })

/-- Whatever the instruction, and in mode AwaitingKey too, a step that answers a next state leaves
keys and the behaviour parameters unchanged and ends with keys_prev equal to keys (the commit, the
spec's decision D18). (40_step_cycle.md section 1, 92_eei_decisions.md D18) -/
def Obligations.StepCommitsKeysAndKeepsInputs : Prop :=
  ∀ s t : State, step s = .next t → t.keys = s.keys ∧ t.keysPrev = s.keys ∧ t.params = s.params

/-- If a step answers a next state, DT is unchanged unless the step fetched LD DT, Vx, and then DT
is V[x]; ST is unchanged unless it fetched LD ST, Vx, and then ST is V[x]. (10_state.md section 4,
40_step_cycle.md section 1) -/
def Obligations.StepLeavesTimersToHost : Prop :=
  ∀ s t : State, step s = .next t →
    (t.dt = s.dt ∨ ∃ w x, s.mode = .running ∧ fetch s = .ok w ∧
      decodeWord s.params.sys w = .op (.ldDtVx x) ∧ t.dt = s.reg x) ∧
    (t.st = s.st ∨ ∃ w x, s.mode = .running ∧ fetch s = .ok w ∧
      decodeWord s.params.sys w = .op (.ldStVx x) ∧ t.st = s.reg x)

/-- No step ends in a refusal; a step that faults was in mode Running and its error is one of
DecodeError::Unknown, StackOverflow, StackUnderflow and MemoryOutOfBounds(a), the last with a of
4096 or more and only under OOB_POLICY = fault. (60_exceptions.md sections 1 and 2) -/
def Obligations.StepErrorsAreTheTaxonomy : Prop :=
  ∀ s : State, (∀ q, step s ≠ .refused q) ∧
    (∀ e, step s = .fault e → s.mode = .running ∧
      ((∃ w, e = .decodeUnknown w) ∨ e = .stackOverflow ∨ e = .stackUnderflow ∨
        ∃ a, e = .memoryOutOfBounds a ∧ 4096 ≤ a ∧ s.params.oob = .fault))

/-- exec raises StackOverflow only for CALL at depth 16 or more, StackUnderflow only for RET at
depth 0, and MemoryOutOfBounds(a) only for DRW, LD B, LD [I] and LD Vx, [I], under OOB_POLICY =
fault with a the first of I, I + 1, ... that is 4096 or more; no instruction raises anything else.
(60_exceptions.md section 2 (priority), 60_exceptions.md section 1) -/
def Obligations.ExecErrorKinds : Prop :=
  ∀ (i : Instr) (s : State) (e : Fault), exec i s = .fault e →
    ((∃ nnn, i = .call nnn) ∧ 16 ≤ s.sp ∧ e = .stackOverflow) ∨
    (i = .ret ∧ s.sp = 0 ∧ e = .stackUnderflow) ∨
    (((∃ x y n, i = .drw x y n) ∨ (∃ x, i = .ldB x) ∨ (∃ x, i = .ldMemVx x) ∨ (∃ x, i = .ldVxMem x)) ∧
      s.params.oob = .fault ∧ e = .memoryOutOfBounds (firstOutside s.i.toNat))

/-- If a step raises e, the host's step transaction replies Err(e) with the whole state unchanged,
pc still at the failing instruction, and any number of further steps with nothing in between replies
the same error and leaves the same state. That pc is rolled back is the spec's decision D3.
(40_step_cycle.md sections 1 and 2, 92_eei_decisions.md D3, D28) -/
def Obligations.FailedStepChangesNothing : Prop :=
  ∀ (s : State) (e : Fault) (n : Nat), step s = .fault e →
    transact s .step = .ok (s, .err e) ∧
    hostRun (List.replicate n .step) s = .ok (s, List.replicate n (.err e))

/-- From reset with no load, for every k up to 1792, k steps all complete and change pc alone, to
0x200 + 2k; the step after them, at pc 0x1000, raises MemoryOutOfBounds(0x1000) and changes nothing.
Rests on the defaults SYS_POLICY = nop and OOB_POLICY = fault (D5, D2, log 13) and on the mode
Running and no key pressed after construction (D19, log 8). (70_reset_and_hazards.md section 2,
95_test_vectors.md SC-15, 92_eei_decisions.md D2, D5, D19) -/
def Obligations.ZeroedMemoryRunsToTheEnd : Prop :=
  (∀ k, k ≤ 1792 → hostRun (List.replicate k .step) State.reset =
    .ok ({ State.reset with pc := BitVec.ofNat 16 (0x200 + 2 * k) }, List.replicate k .done)) ∧
  transact { State.reset with pc := 0x1000#16 } .step =
    .ok ({ State.reset with pc := 0x1000#16 }, .err (.memoryOutOfBounds 0x1000))

/-- If LD [I], Vx with X of at least 1 completes while I is the advanced pc, the word fetched next
is V0 in the high byte and V1 in the low byte, whatever stood there before. (20_memory.md section 4
(fetch coherence)) -/
def Obligations.StoreIsSeenByNextFetch : Prop :=
  ∀ (x : RegIdx) (s t : State), exec (.ldMemVx x) s = .next t → 1 ≤ x.toNat → s.i = s.pc →
    fetch t = .ok (s.reg 0#4 ++ s.reg 1#4)

/-- If exec of any instruction answers a next state, every register the instruction does not name as
its destination keeps its value; VF besides is written by ADD Vx Vy, SUB, SHR, SUBN, SHL and DRW
alone. (10_state.md section 2) -/
def Obligations.RegistersWrittenOnlyByName : Prop :=
  ∀ (i : Instr) (s t : State) (z : RegIdx), exec i s = .next t → writesReg i z = false →
    t.reg z = s.reg z

/-- If exec of any instruction answers a next state: the framebuffer and dirty change only by CLS
and DRW; DT only by LD DT; ST only by LD ST; the stack only by CALL and RET; I only by LD I, ADD I
and LD F; memory only by LD B and LD [I]; mode only by LD Vx, K; the random source's fields only by
RND; pc only by the control transfers, the skips and LD Vx, K; keys, keys_prev and the parameters
never. (10_state.md sections 3 to 8, 44_display.md section 3, 20_memory.md section 2) -/
def Obligations.StateWrittenOnlyByName : Prop :=
  ∀ (i : Instr) (s t : State), exec i s = .next t →
    (i ≠ .cls → (∀ x y n, i ≠ .drw x y n) → t.fb = s.fb ∧ t.dirty = s.dirty) ∧
    ((∀ x, i ≠ .ldDtVx x) → t.dt = s.dt) ∧ ((∀ x, i ≠ .ldStVx x) → t.st = s.st) ∧
    ((∀ nnn, i ≠ .call nnn) → i ≠ .ret → t.stack = s.stack) ∧
    ((∀ nnn, i ≠ .ldI nnn) → (∀ x, i ≠ .addI x) → (∀ x, i ≠ .ldF x) → t.i = s.i) ∧
    ((∀ x, i ≠ .ldB x) → (∀ x, i ≠ .ldMemVx x) → t.mem = s.mem) ∧
    ((∀ x, i ≠ .ldVxK x) → t.mode = s.mode) ∧
    ((∀ x nn, i ≠ .rnd x nn) → t.rngPending = s.rngPending ∧ t.rngDrawn = s.rngDrawn) ∧
    ((∀ nnn, i ≠ .jp nnn) → (∀ nnn, i ≠ .call nnn) → i ≠ .ret → (∀ nnn, i ≠ .jpV0 nnn) →
      (∀ x nn, i ≠ .seImm x nn) → (∀ x nn, i ≠ .sneImm x nn) → (∀ x y, i ≠ .seReg x y) →
      (∀ x y, i ≠ .sneReg x y) → (∀ x, i ≠ .skp x) → (∀ x, i ≠ .sknp x) → (∀ x, i ≠ .ldVxK x) →
      t.pc = s.pc) ∧
    t.keys = s.keys ∧ t.keysPrev = s.keysPrev ∧ t.params = s.params

/-- Changing the framebuffer and dirty before any instruction but CLS and DRW changes its outcome in
those two fields alone; before CLS it changes nothing at all; before DRW it changes the outcome in
the framebuffer and VF alone. Changing ST before any instruction but LD ST changes the outcome in ST
alone. (44_display.md section 3, 10_state.md section 4) -/
def Obligations.ScreenIsReadOnlyByCollision : Prop :=
  ∀ (i : Instr) (s : State) (f : Framebuffer) (d : Bool) (b : Byte),
    ((i = .cls ∨ ∃ x y n, i = .drw x y n) ∨
      exec i { s with fb := f, dirty := d } = mapNext (fun t => { t with fb := f, dirty := d }) (exec i s)) ∧
    exec .cls { s with fb := f, dirty := d } = exec .cls s ∧
    (∀ x y n, ∃ g c, exec (.drw x y n) { s with fb := f, dirty := d } =
      mapNext (fun t => ({ t with fb := g } : State).setReg 15#4 c) (exec (.drw x y n) s)) ∧
    ((∃ x, i = .ldStVx x) ∨ exec i { s with st := b } = mapNext (fun t => { t with st := b }) (exec i s)) ∧
    (∀ t, exec i s = .next t → i ≠ .cls → (∀ x y n, i ≠ .drw x y n) → t.fb = s.fb ∧ t.dirty = s.dirty)

/-- At depth 16 Push raises StackOverflow; below it, Push puts the value in stack[sp] and makes sp
one more, the older entries and all other state as they were. At depth 0 Pop raises StackUnderflow;
above it, Pop answers stack[sp - 1] and makes sp one less, the older entries and all other state as
they were. No Push answers a depth above 16. (R30, R31) -/
def Obligations.PushAndPop : Prop :=
  ∀ (s : State) (w : Word),
    (s.sp = 16 → push s w = .error .stackOverflow) ∧
    (s.sp < 16 → ∃ t, push s w = .ok t ∧ t.sp = s.sp + 1 ∧ t.stackEntry s.sp = some w ∧
      (∀ k, k < s.sp → t.stackEntry k = s.stackEntry k) ∧ t = { s with stack := t.stack }) ∧
    (s.sp = 0 → pop s = .error .stackUnderflow) ∧
    (0 < s.sp → ∃ v t, pop s = .ok (v, t) ∧ s.stackEntry (s.sp - 1) = some v ∧ t.sp = s.sp - 1 ∧
      (∀ k, k < t.sp → t.stackEntry k = s.stackEntry k) ∧ t = { s with stack := t.stack }) ∧
    (∀ t, push s w = .ok t → t.sp ≤ 16)

/-- take_dirty returns dirty as it was and clears it, all other state as it was; sound_active
returns 1 when ST is above 0 and 0 when it is 0, and changes nothing. A second take_dirty returns 0.
(R295, R297) -/
def Obligations.DirtyAndSoundTransactions : Prop :=
  ∀ s : State,
    (∃ t, transact s .takeDirty = .ok (t, .bit s.dirty) ∧ t = { s with dirty := false } ∧
      transact t .takeDirty = .ok (t, .bit false)) ∧
    (0 < s.st.toNat → transact s .soundActive = .ok (s, .bit true)) ∧
    (s.st.toNat = 0 → transact s .soundActive = .ok (s, .bit false))

/-- exec of SYS changes nothing (pc keeps its advanced value). A word 0x0NNN other than 0x00E0 and
0x00EE decodes to SYS under SYS_POLICY = nop and to Unknown under unknown. The no-op is the spec's
decision D5 (log 13). Opcode values are the spec's general knowledge (D34, log 7).
(41_control_flow.md section 1, 92_eei_decisions.md D5) -/
def Obligations.SysAdvancesOnly : Prop :=
  ∀ (nnn : Addr) (s : State), exec (.sys nnn) s = .next s ∧
    (Instr.wellFormed (.sys nnn) = true →
      decodeWord .nop (0x0#4 ++ nnn) = .op (.sys nnn) ∧
      decodeWord .unknown (0x0#4 ++ nnn) = .unknown (0x0#4 ++ nnn))

/-- 0x00EE decodes to RET. With a non-empty stack, exec of RET answers the state with pc = stack[sp
- 1], sp less by one, the other entries as they were and nothing else changed; with an empty stack
it raises StackUnderflow, and the host's step transaction on a state about to run it leaves that
whole state, pc among it, as it was. Opcode values are the spec's general knowledge (D34, log 7).
(41_control_flow.md rule R131) -/
def Obligations.RetPopsIntoPc : Prop :=
  ∀ (p : SysPolicy) (s : State), decodeWord p 0x00EE#16 = .op .ret ∧
    (0 < s.sp → ∃ t, exec .ret s = .next t ∧ s.stackEntry (s.sp - 1) = some t.pc ∧ t.sp = s.sp - 1 ∧
      (∀ k, k < t.sp → t.stackEntry k = s.stackEntry k) ∧ t = { s with pc := t.pc, stack := t.stack }) ∧
    (s.sp = 0 → exec .ret s = .fault .stackUnderflow) ∧
    (s.sp = 0 → s.mode = .running → fetch s = .ok 0x00EE#16 →
      transact s .step = .ok (s, .err .stackUnderflow))

/-- Every word 0x1NNN decodes to JP NNN, and exec of it answers the state with pc = NNN and nothing
else changed. Opcode values are the spec's general knowledge (D34, log 7). (41_control_flow.md rule
R132) -/
def Obligations.JumpSetsPc : Prop :=
  ∀ (p : SysPolicy) (nnn : Addr) (s : State), decodeWord p (0x1#4 ++ nnn) = .op (.jp nnn) ∧
    ∃ t, exec (.jp nnn) s = .next t ∧ t.pc.toNat = nnn.toNat ∧ t = { s with pc := t.pc }

/-- Every word 0x2NNN decodes to CALL NNN. Below depth 16, exec of it answers the state with
stack[sp] = the advanced pc, sp one more, the older entries as they were, pc = NNN and nothing else
changed; at depth 16 it raises StackOverflow, and the host's step transaction on a state about to
run it leaves that whole state, its 16 entries and pc among it, as it was. Opcode values are the
spec's general knowledge (D34, log 7). (41_control_flow.md rule R133) -/
def Obligations.CallPushesReturnAddress : Prop :=
  ∀ (p : SysPolicy) (nnn : Addr) (s : State), decodeWord p (0x2#4 ++ nnn) = .op (.call nnn) ∧
    (s.sp < 16 → ∃ t, exec (.call nnn) s = .next t ∧ t.sp = s.sp + 1 ∧ t.stackEntry s.sp = some s.pc ∧
      (∀ k, k < s.sp → t.stackEntry k = s.stackEntry k) ∧ t.pc.toNat = nnn.toNat ∧
      t = { s with pc := t.pc, stack := t.stack }) ∧
    (s.sp = 16 → exec (.call nnn) s = .fault .stackOverflow) ∧
    (s.sp = 16 → s.mode = .running → fetch s = .ok (0x2#4 ++ nnn) →
      transact s .step = .ok (s, .err .stackOverflow))

/-- If CALL answers a next state t, then from any state u with t's stack RET answers u with pc the
advanced pc of the CALL and the stack as it was before the CALL. (41_control_flow.md section 5) -/
def Obligations.RetUndoesCall : Prop :=
  ∀ (nnn : Addr) (s t u : State), exec (.call nnn) s = .next t → u.stack = t.stack →
    exec .ret u = .next { u with pc := s.pc, stack := s.stack }

/-- Words 0x3XNN and 0x4XNN decode to SE and SNE. Each answers the state with pc advanced by 2 more
(mod 65536) exactly when V[X] = NN (SE) or V[X] ≠ NN (SNE), and nothing else changed. Opcode values
are the spec's general knowledge (D34, log 7). (41_control_flow.md rule R134, 41_control_flow.md
rule R135) -/
def Obligations.SkipsOnImmediate : Prop :=
  ∀ (p : SysPolicy) (x : RegIdx) (nn : Byte) (s : State),
    decodeWord p (0x3#4 ++ x ++ nn) = .op (.seImm x nn) ∧
    decodeWord p (0x4#4 ++ x ++ nn) = .op (.sneImm x nn) ∧
    exec (.seImm x nn) s = .next { s with pc := if s.reg x = nn then s.pc + 2#16 else s.pc } ∧
    exec (.sneImm x nn) s = .next { s with pc := if s.reg x = nn then s.pc else s.pc + 2#16 }

/-- Words 0x5XY0 and 0x9XY0 decode to SE and SNE, and with a low nibble other than 0 to Unknown.
Each answers the state with pc advanced by 2 more exactly when V[X] = V[Y] (SE) or V[X] ≠ V[Y]
(SNE), and nothing else changed. The strict low nibble is the spec's decision D31 (log 29). Opcode
values are the spec's general knowledge (D34, log 7). (41_control_flow.md section 3,
92_eei_decisions.md D31) -/
def Obligations.SkipsOnRegisters : Prop :=
  ∀ (p : SysPolicy) (x y n : Nibble) (s : State),
    decodeWord p (0x5#4 ++ x ++ y ++ 0x0#4) = .op (.seReg x y) ∧
    decodeWord p (0x9#4 ++ x ++ y ++ 0x0#4) = .op (.sneReg x y) ∧
    (n ≠ 0x0#4 → decodeWord p (0x5#4 ++ x ++ y ++ n) = .unknown (0x5#4 ++ x ++ y ++ n) ∧
      decodeWord p (0x9#4 ++ x ++ y ++ n) = .unknown (0x9#4 ++ x ++ y ++ n)) ∧
    exec (.seReg x y) s = .next { s with pc := if s.reg x = s.reg y then s.pc + 2#16 else s.pc } ∧
    exec (.sneReg x y) s = .next { s with pc := if s.reg x = s.reg y then s.pc else s.pc + 2#16 }

/-- Every word 0xBNNN decodes to JP V0, NNN, and exec of it answers the state with pc = NNN + V0
under JUMP_OFFSET_MODE = V0 and NNN + V[w[11:8]] under VX; the sum is below 65536, so that it never
wraps; nothing else changes. V0 as the default is the spec's decision D9. Opcode values are the
spec's general knowledge (D34, log 7). (41_control_flow.md section 4, 92_eei_decisions.md D9) -/
def Obligations.JumpWithOffset : Prop :=
  ∀ (p : SysPolicy) (nnn : Addr) (s : State), decodeWord p (0xB#4 ++ nnn) = .op (.jpV0 nnn) ∧
    ∃ t, exec (.jpV0 nnn) s = .next t ∧
      (s.params.jump = .v0 → t.pc.toNat = nnn.toNat + (s.reg 0#4).toNat) ∧
      (s.params.jump = .vx → t.pc.toNat = nnn.toNat + (s.reg (BitVec.ofNat 4 (nnn.toNat / 256))).toNat) ∧
      t = { s with pc := t.pc }

/-- Words 0x6XNN and 0x8XY0 decode to LD Vx, nn and LD Vx, Vy. They answer the state with V[X] = NN,
or V[X] = V[Y], every other register and all other state unchanged, VF included unless X = 15.
Opcode values are the spec's general knowledge (D34, log 7). (42_alu.md rule R160, 42_alu.md rule
R162) -/
def Obligations.LoadImmediateAndCopy : Prop :=
  ∀ (p : SysPolicy) (x y : RegIdx) (nn : Byte) (s : State),
    decodeWord p (0x6#4 ++ x ++ nn) = .op (.ldImm x nn) ∧
    decodeWord p (0x8#4 ++ x ++ y ++ 0x0#4) = .op (.ldReg x y) ∧
    (∃ t, exec (.ldImm x nn) s = .next t ∧ RegWritten s t x nn) ∧
    (∃ t, exec (.ldReg x y) s = .next t ∧ RegWritten s t x (s.reg y))

/-- Every word 0x7XNN decodes to ADD Vx, nn, which answers the state with V[X] = (V[X] + NN) mod 256
and every other register, VF among them, and all other state unchanged. That it writes no flag is
the spec's decision D6 (log 15). Opcode values are the spec's general knowledge (D34, log 7).
(42_alu.md section 1, 92_eei_decisions.md D6) -/
def Obligations.AddImmediateWrapsWithoutFlag : Prop :=
  ∀ (p : SysPolicy) (x : RegIdx) (nn : Byte) (s : State),
    decodeWord p (0x7#4 ++ x ++ nn) = .op (.addImm x nn) ∧
    ∃ t, exec (.addImm x nn) s = .next t ∧
      RegWritten s t x (BitVec.ofNat 8 (((s.reg x).toNat + nn.toNat) % 256))

/-- Words 0x8XY1, 0x8XY2 and 0x8XY3 decode to OR, AND and XOR. Each answers the state whose V[X]
has, at every bit, the operation of the bits of V[X] and V[Y], every other register and all other
state unchanged. That VF is not written is the spec's decision D7 (log 16). Opcode values are the
spec's general knowledge (D34, log 7). (42_alu.md section 2, 92_eei_decisions.md D7) -/
def Obligations.BitwiseOperations : Prop :=
  ∀ (p : SysPolicy) (x y : RegIdx) (s : State),
    decodeWord p (0x8#4 ++ x ++ y ++ 0x1#4) = .op (.orReg x y) ∧
    decodeWord p (0x8#4 ++ x ++ y ++ 0x2#4) = .op (.andReg x y) ∧
    decodeWord p (0x8#4 ++ x ++ y ++ 0x3#4) = .op (.xorReg x y) ∧
    (∃ t, exec (.orReg x y) s = .next t ∧ RegWritten s t x (t.reg x) ∧
      ∀ b, (t.reg x).getLsbD b = ((s.reg x).getLsbD b || (s.reg y).getLsbD b)) ∧
    (∃ t, exec (.andReg x y) s = .next t ∧ RegWritten s t x (t.reg x) ∧
      ∀ b, (t.reg x).getLsbD b = ((s.reg x).getLsbD b && (s.reg y).getLsbD b)) ∧
    (∃ t, exec (.xorReg x y) s = .next t ∧ RegWritten s t x (t.reg x) ∧
      ∀ b, (t.reg x).getLsbD b = ((s.reg x).getLsbD b ^^ (s.reg y).getLsbD b))

/-- Every word 0x8XY4 decodes to ADD Vx, Vy, which answers the state with V[X] = (a + b) mod 256 (X
≠ 15) and VF = 1 if a + b > 255, else 0, a and b read before any write; with X = 15 VF holds the
flag; all else unchanged. The flag being the last write is the spec's decision D8, which R166's
pseudocode writes out. Opcode values are the spec's general knowledge (D34, log 7). (42_alu.md rule
R166) -/
def Obligations.AddSetsCarry : Prop :=
  ∀ (p : SysPolicy) (x y : RegIdx) (s : State),
    decodeWord p (0x8#4 ++ x ++ y ++ 0x4#4) = .op (.addReg x y) ∧
    ∃ t, exec (.addReg x y) s = .next t ∧
      ResultAndFlag s t x (BitVec.ofNat 8 (((s.reg x).toNat + (s.reg y).toNat) % 256))
        (if 255 < (s.reg x).toNat + (s.reg y).toNat then 1#8 else 0#8)

/-- Words 0x8XY5 and 0x8XY7 decode to SUB and SUBN. With a = V[X] and b = V[Y] read first, SUB
answers V[X] = (a - b) mod 256 and VF = 1 if a ≥ b, else 0, and SUBN V[X] = (b - a) mod 256 and VF =
1 if b ≥ a, else 0; with X = 15 VF holds the flag; all else unchanged. Opcode values are the spec's
general knowledge (D34, log 7). (42_alu.md rule R167, 42_alu.md rule R169) -/
def Obligations.SubtractSetsNotBorrow : Prop :=
  ∀ (p : SysPolicy) (x y : RegIdx) (s : State),
    decodeWord p (0x8#4 ++ x ++ y ++ 0x5#4) = .op (.subReg x y) ∧
    decodeWord p (0x8#4 ++ x ++ y ++ 0x7#4) = .op (.subnReg x y) ∧
    (∃ t, exec (.subReg x y) s = .next t ∧
      ResultAndFlag s t x (BitVec.ofInt 8 (((s.reg x).toNat - (s.reg y).toNat : Int) % 256))
        (if (s.reg y).toNat ≤ (s.reg x).toNat then 1#8 else 0#8)) ∧
    (∃ t, exec (.subnReg x y) s = .next t ∧
      ResultAndFlag s t x (BitVec.ofInt 8 (((s.reg y).toNat - (s.reg x).toNat : Int) % 256))
        (if (s.reg x).toNat ≤ (s.reg y).toNat then 1#8 else 0#8))

/-- Words 0x8XY6 and 0x8XYE decode to SHR and SHL for every Y. With a = V[X], SHR answers V[X] = a /
2 and VF = old bit 0, SHL V[X] = 2a mod 256 and VF = old bit 7; with X = 15 VF holds the flag; all
else unchanged, and V[Y] has no part in it. Opcode values are the spec's general knowledge (D34, log
7). (42_alu.md rule R168, 42_alu.md rule R170, 42_alu.md rule R173) -/
def Obligations.ShiftsUseVxAlone : Prop :=
  ∀ (p : SysPolicy) (x y : RegIdx) (s : State),
    decodeWord p (0x8#4 ++ x ++ y ++ 0x6#4) = .op (.shr x y) ∧
    decodeWord p (0x8#4 ++ x ++ y ++ 0xE#4) = .op (.shl x y) ∧
    (∃ t, exec (.shr x y) s = .next t ∧
      ResultAndFlag s t x (BitVec.ofNat 8 ((s.reg x).toNat / 2)) (BitVec.ofNat 8 ((s.reg x).toNat % 2))) ∧
    (∃ t, exec (.shl x y) s = .next t ∧
      ResultAndFlag s t x (BitVec.ofNat 8 (2 * (s.reg x).toNat % 256))
        (BitVec.ofNat 8 ((s.reg x).toNat / 128)))

/-- Every word 0xANNN decodes to LD I, nnn, which answers the state with I = NNN and nothing else
changed. Opcode values are the spec's general knowledge (D34, log 7). (43_index_memory.md rule R200)
-/
def Obligations.LoadIndex : Prop :=
  ∀ (p : SysPolicy) (nnn : Addr) (s : State), decodeWord p (0xA#4 ++ nnn) = .op (.ldI nnn) ∧
    ∃ t, exec (.ldI nnn) s = .next t ∧ t.i.toNat = nnn.toNat ∧ t = { s with i := t.i }

/-- Every word 0xFX1E decodes to ADD I, Vx, which answers the state with I = (I + V[X]) mod 65536
and nothing else changed, VF among it. The width and the missing flag are the spec's decisions D29
and D10. Opcode values are the spec's general knowledge (D34, log 7). (43_index_memory.md section 1,
92_eei_decisions.md D10, D29) -/
def Obligations.AddToIndex : Prop :=
  ∀ (p : SysPolicy) (x : RegIdx) (s : State), decodeWord p (0xF#4 ++ x ++ 0x1E#8) = .op (.addI x) ∧
    ∃ t, exec (.addI x) s = .next t ∧ t.i.toNat = (s.i.toNat + (s.reg x).toNat) % 65536 ∧
      t = { s with i := t.i }

/-- Every word 0xFX29 decodes to LD F, Vx, which answers the state with I = 0x050 + 5 (V[X] mod 16)
and nothing else changed. Base, size and low nibble are the spec's decision D11. Opcode values are
the spec's general knowledge (D34, log 7). (43_index_memory.md section 1, 92_eei_decisions.md D11)
-/
def Obligations.GlyphAddress : Prop :=
  ∀ (p : SysPolicy) (x : RegIdx) (s : State), decodeWord p (0xF#4 ++ x ++ 0x29#8) = .op (.ldF x) ∧
    ∃ t, exec (.ldF x) s = .next t ∧ t.i.toNat = 0x050 + 5 * ((s.reg x).toNat % 16) ∧
      t = { s with i := t.i }

/-- Every word 0xFX33 decodes to LD B, Vx. When the three addresses pass the check, it answers the
state whose bytes at the addresses I, I + 1, I + 2 reach hold V[X] / 100, V[X] / 10 mod 10 and V[X]
mod 10, every other byte as before and nothing but memory changed; else it raises MemoryOutOfBounds
of the first address of 4096 or more, and writes nothing. Digit order is general knowledge in the
spec (log 23). Opcode values are the spec's general knowledge (D34, log 7). (43_index_memory.md
section 2, 20_memory.md section 2) -/
def Obligations.BcdStoresDecimalDigits : Prop :=
  ∀ (p : SysPolicy) (x : RegIdx) (s : State), decodeWord p (0xF#4 ++ x ++ 0x33#8) = .op (.ldB x) ∧
    (InBounds s.params.oob s.i.toNat 3 → ∃ t, exec (.ldB x) s = .next t ∧
      (∀ a, resolve s.params.oob s.i.toNat = .ok a → (t.mem.read a).toNat = (s.reg x).toNat / 100) ∧
      (∀ a, resolve s.params.oob (s.i.toNat + 1) = .ok a →
        (t.mem.read a).toNat = (s.reg x).toNat / 10 % 10) ∧
      (∀ a, resolve s.params.oob (s.i.toNat + 2) = .ok a → (t.mem.read a).toNat = (s.reg x).toNat % 10) ∧
      (∀ a, (∀ k, k < 3 → resolve s.params.oob (s.i.toNat + k) ≠ .ok a) →
        t.mem.read a = s.mem.read a) ∧
      t = { s with mem := t.mem }) ∧
    (¬ InBounds s.params.oob s.i.toNat 3 →
      exec (.ldB x) s = .fault (.memoryOutOfBounds (firstOutside s.i.toNat)))

/-- Every word 0xFX55 decodes to LD [I], Vx. When the X + 1 addresses pass the check, it answers the
state whose byte at the address I + k reaches is V[k] for k in 0..X, every other byte as before and
nothing but memory changed, I among it; else it raises MemoryOutOfBounds of the first address of
4096 or more, and the host's step transaction leaves the whole state as it was. Opcode values are
the spec's general knowledge (D34, log 7). (43_index_memory.md rule R206) -/
def Obligations.BlockStore : Prop :=
  ∀ (p : SysPolicy) (x : RegIdx) (s : State), decodeWord p (0xF#4 ++ x ++ 0x55#8) = .op (.ldMemVx x) ∧
    (InBounds s.params.oob s.i.toNat (x.toNat + 1) → ∃ t, exec (.ldMemVx x) s = .next t ∧
      (∀ (z : RegIdx) (a : Nat), z.toNat ≤ x.toNat →
        resolve s.params.oob (s.i.toNat + z.toNat) = .ok a → t.mem.read a = s.reg z) ∧
      (∀ a, (∀ k, k ≤ x.toNat → resolve s.params.oob (s.i.toNat + k) ≠ .ok a) →
        t.mem.read a = s.mem.read a) ∧
      t = { s with mem := t.mem }) ∧
    (¬ InBounds s.params.oob s.i.toNat (x.toNat + 1) →
      exec (.ldMemVx x) s = .fault (.memoryOutOfBounds (firstOutside s.i.toNat)) ∧
      (s.mode = .running → fetch s = .ok (0xF#4 ++ x ++ 0x55#8) →
        transact s .step = .ok (s, .err (.memoryOutOfBounds (firstOutside s.i.toNat)))))

/-- Every word 0xFX65 decodes to LD Vx, [I]. When the X + 1 addresses pass the check, it answers the
state with V[k] = the byte at the address I + k reaches for k in 0..X, the registers above X and all
other state unchanged, I and memory among it; else it raises MemoryOutOfBounds of the first address
of 4096 or more, and the host's step transaction leaves the whole state as it was. Opcode values are
the spec's general knowledge (D34, log 7). (43_index_memory.md rule R207) -/
def Obligations.BlockLoad : Prop :=
  ∀ (p : SysPolicy) (x : RegIdx) (s : State), decodeWord p (0xF#4 ++ x ++ 0x65#8) = .op (.ldVxMem x) ∧
    (InBounds s.params.oob s.i.toNat (x.toNat + 1) → ∃ t, exec (.ldVxMem x) s = .next t ∧
      (∀ (z : RegIdx) (a : Nat), z.toNat ≤ x.toNat →
        resolve s.params.oob (s.i.toNat + z.toNat) = .ok a → t.reg z = s.mem.read a) ∧
      (∀ z : RegIdx, x.toNat < z.toNat → t.reg z = s.reg z) ∧
      t = { s with v := t.v }) ∧
    (¬ InBounds s.params.oob s.i.toNat (x.toNat + 1) →
      exec (.ldVxMem x) s = .fault (.memoryOutOfBounds (firstOutside s.i.toNat)) ∧
      (s.mode = .running → fetch s = .ok (0xF#4 ++ x ++ 0x65#8) →
        transact s .step = .ok (s, .err (.memoryOutOfBounds (firstOutside s.i.toNat)))))

/-- If LD [I], Vx answers t, then from any state u with t's memory, I and parameters, LD Vx, [I]
completes with V0..VX as they were at the store and the registers above X as in u.
(43_index_memory.md section 2) -/
def Obligations.StoreThenLoadRestores : Prop :=
  ∀ (x : RegIdx) (s t u : State), exec (.ldMemVx x) s = .next t →
    u.mem = t.mem → u.i = t.i → u.params = t.params →
    ∃ w, exec (.ldVxMem x) u = .next w ∧
      ∀ z : RegIdx, w.reg z = if z.toNat ≤ x.toNat then s.reg z else u.reg z

/-- 0x00E0 decodes to CLS, which answers the state with every pixel off, dirty set, and nothing else
changed, VF among it. Opcode values are the spec's general knowledge (D34, log 7). (44_display.md
rule R234) -/
def Obligations.ClearScreen : Prop :=
  ∀ (p : SysPolicy) (s : State), decodeWord p 0x00E0#16 = .op .cls ∧
    ∃ t, exec .cls s = .next t ∧ (∀ px py, pixel t.fb px py = false) ∧ t.dirty = true ∧
      t = { s with fb := t.fb, dirty := t.dirty }

/-- Every word 0xDXYN decodes to DRW. When the N addresses pass the check, it answers the state in
which a pixel is flipped exactly if the sprite has a 1 for it (origin V[X] mod 64, V[Y] mod 32; bit
7 leftmost; nothing past column 63 or row 31), dirty is set, VF is 1 if some flip turned a pixel off
and else 0, and nothing else changes (N = 0: no pixel, VF = 0); else it raises MemoryOutOfBounds of
the first address of 4096 or more. Bit order, N = 0 and clipped rows being read are the spec's
decisions D13, D14, D15. Opcode values are the spec's general knowledge (D34, log 7). (44_display.md
sections 1 and 2, 92_eei_decisions.md D13, D14, D15) -/
def Obligations.DrawSprite : Prop :=
  ∀ (p : SysPolicy) (x y : RegIdx) (n : Nibble) (s : State),
    decodeWord p (0xD#4 ++ x ++ y ++ n) = .op (.drw x y n) ∧
    (InBounds s.params.oob s.i.toNat n.toNat → ∃ t, exec (.drw x y n) s = .next t ∧
      (∀ px py, px < 64 → py < 32 → SpriteOn s x y n px py → pixel t.fb px py = !pixel s.fb px py) ∧
      (∀ px py, px < 64 → py < 32 → ¬ SpriteOn s x y n px py → pixel t.fb px py = pixel s.fb px py) ∧
      (SpriteCollides s x y n → t.reg 15#4 = 1#8) ∧ (¬ SpriteCollides s x y n → t.reg 15#4 = 0#8) ∧
      (∀ z, z ≠ 15#4 → t.reg z = s.reg z) ∧ t = { s with v := t.v, fb := t.fb, dirty := true }) ∧
    (¬ InBounds s.params.oob s.i.toNat n.toNat →
      exec (.drw x y n) s = .fault (.memoryOutOfBounds (firstOutside s.i.toNat)))

/-- For every screen, coordinates and row bytes, the screen and the collision bit of draw_sprite are
those of the pseudocode's loop, which visits row after row and bit after bit, flips the screen pixel
by pixel and raises the collision bit on the way. (44_display.md section 2 (DRW pseudocode)) -/
def Obligations.DrawMatchesPseudocodeLoop : Prop :=
  ∀ (fb : Framebuffer) (x y : Nat) (rows : List Byte),
    drawSprite fb x y rows = drawLoop (x % 64) (y % 32) rows (fb, false)

/-- For DRW with X and Y other than 15: if it answers t, the same instruction from t completes with
the screen as it was before the first draw, and the second VF is 1 exactly if the first draw turned
some pixel on, else 0. (44_display.md section 3) -/
def Obligations.DrawTwiceRestoresScreen : Prop :=
  ∀ (x y : RegIdx) (n : Nibble) (s t : State), x ≠ 15#4 → y ≠ 15#4 → exec (.drw x y n) s = .next t →
    ∃ u, exec (.drw x y n) t = .next u ∧ u.fb = s.fb ∧
      ((∃ px py, pixel s.fb px py = false ∧ pixel t.fb px py = true) → u.reg 15#4 = 1#8) ∧
      ((¬ ∃ px py, pixel s.fb px py = false ∧ pixel t.fb px py = true) → u.reg 15#4 = 0#8)

/-- Every word 0xCXNN decodes to RND, which completes with V[X] = r AND NN for the draw r, consuming
exactly one draw: the first substituted value if there is one, else the next free value; nothing
else changes. The free value is never given a number (log 2). Opcode values are the spec's general
knowledge (D34, log 7). (45_random_input_timers.md section 1, 92_eei_decisions.md D22) -/
def Obligations.RandomUnderMask : Prop :=
  ∀ (p : SysPolicy) (x : RegIdx) (nn : Byte) (s : State),
    decodeWord p (0xC#4 ++ x ++ nn) = .op (.rnd x nn) ∧
    (∀ r rest, s.rngPending = r :: rest → ∃ t, exec (.rnd x nn) s = .next t ∧
      RegWritten { s with rngPending := rest } t x (r &&& nn)) ∧
    (s.rngPending = [] → ∃ t, exec (.rnd x nn) s = .next t ∧
      RegWritten { s with rngDrawn := s.rngDrawn + 1 } t x (Config.freeDraw s.rngDrawn &&& nn))

/-- Words 0xEX9E and 0xEXA1 decode to SKP and SKNP, which answer the state with pc advanced by 2
more exactly when key V[X] mod 16 is pressed (SKP) or not pressed (SKNP) in keys, and nothing else
changed. The low nibble is the spec's decision D16. Opcode values are the spec's general knowledge
(D34, log 7). (45_random_input_timers.md section 2, 92_eei_decisions.md D16) -/
def Obligations.KeySkips : Prop :=
  ∀ (p : SysPolicy) (x : RegIdx) (s : State),
    decodeWord p (0xE#4 ++ x ++ 0x9E#8) = .op (.skp x) ∧
    decodeWord p (0xE#4 ++ x ++ 0xA1#8) = .op (.sknp x) ∧
    exec (.skp x) s = .next { s with
      pc := if s.key (BitVec.ofNat 4 ((s.reg x).toNat % 16)) = true then s.pc + 2#16 else s.pc } ∧
    exec (.sknp x) s = .next { s with
      pc := if s.key (BitVec.ofNat 4 ((s.reg x).toNat % 16)) = true then s.pc else s.pc + 2#16 }

/-- Every word 0xFX0A decodes to LD Vx, K. If k is the lowest key with a press edge, it completes
with V[X] = k and nothing else changed; if there is none, it answers the state with mode
AwaitingKey(X) and pc back at the instruction, nothing else changed. Both are the spec's decision
D17. Opcode values are the spec's general knowledge (D34, log 7). (45_random_input_timers.md section
2, 92_eei_decisions.md D17) -/
def Obligations.KeyWait : Prop :=
  ∀ (p : SysPolicy) (x : RegIdx) (s : State), decodeWord p (0xF#4 ++ x ++ 0x0A#8) = .op (.ldVxK x) ∧
    (∀ k, LeastEdge s k → ∃ t, exec (.ldVxK x) s = .next t ∧ RegWritten s t x (BitVec.ofNat 8 k.toNat)) ∧
    ((∀ k, ¬ PressEdge s k) →
      exec (.ldVxK x) s = .next { s with mode := .awaitingKey x, pc := s.pc - 2#16 })

/-- Words 0xFX07, 0xFX15 and 0xFX18 decode to the timer transfers, which answer the state with V[X]
= DT, DT = V[X] or ST = V[X], and nothing else changed; after LD ST, sound_active() is 1 exactly if
V[X] > 0. Opcode values are the spec's general knowledge (D34, log 7). (45_random_input_timers.md
rule R257, 45_random_input_timers.md rule R258, 45_random_input_timers.md rule R259) -/
def Obligations.TimerTransfers : Prop :=
  ∀ (p : SysPolicy) (x : RegIdx) (s : State),
    decodeWord p (0xF#4 ++ x ++ 0x07#8) = .op (.ldVxDt x) ∧
    decodeWord p (0xF#4 ++ x ++ 0x15#8) = .op (.ldDtVx x) ∧
    decodeWord p (0xF#4 ++ x ++ 0x18#8) = .op (.ldStVx x) ∧
    (∃ t, exec (.ldVxDt x) s = .next t ∧ RegWritten s t x s.dt) ∧
    exec (.ldDtVx x) s = .next { s with dt := s.reg x } ∧
    exec (.ldStVx x) s = .next { s with st := s.reg x } ∧
    transact { s with st := s.reg x } .soundActive =
      .ok ({ s with st := s.reg x }, .bit (decide (0 < (s.reg x).toNat)))

/-- tick_timers replies without an error; after n of them DT is max(DT - n, 0) and ST is max(ST - n,
0), and every other piece of state is as it was, whatever the mode. (R292) -/
def Obligations.TicksCountDownToZero : Prop :=
  ∀ (n : Nat) (s : State), ∃ t, hostRun (List.replicate n .tickTimers) s = .ok (t, List.replicate n .done) ∧
    t.dt.toNat = s.dt.toNat - n ∧ t.st.toNat = s.st.toNat - n ∧ t = { s with dt := t.dt, st := t.st }

/-- set_key(k, p) with k below 16 sets keys[k] to p and changes nothing else, and is refused with k
of 16 or more (D32); set_pc(v) sets pc and nothing else (D27). (60_exceptions.md section 3,
92_eei_decisions.md D27, D32) -/
def Obligations.HostWritesOneThing : Prop :=
  ∀ (s : State) (k : Nat) (p : Bool) (v : Word),
    (k < 16 → ∃ t, transact s (.setKey k p) = .ok (t, .done) ∧
      (∀ j : KeyIdx, t.key j = if j.toNat = k then p else s.key j) ∧ t = { s with keys := t.keys }) ∧
    (16 ≤ k → transact s (.setKey k p) = .error (.keyOutOfRange k)) ∧
    transact s (.setPc v) = .ok ({ s with pc := v }, .done)

/-- With at most 3584 bytes, load replies Ok with byte 0x200 + k of memory equal to byte k, every
other byte of memory and all other state as they were; with more, it replies LoadError and changes
nothing. That a load after steps is only the copy is the spec's decision D21. (60_exceptions.md
section 3, 92_eei_decisions.md D21) -/
def Obligations.LoadCopiesTheProgram : Prop :=
  ∀ (s : State) (bytes : List Byte),
    (bytes.length ≤ 3584 → ∃ t, transact s (.load bytes) = .ok (t, .done) ∧
      (∀ k, k < bytes.length → t.mem.read (0x200 + k) = bytes.getD k 0#8) ∧
      (∀ a, (a < 0x200 ∨ 0x200 + bytes.length ≤ a) → t.mem.read a = s.mem.read a) ∧
      t = { s with mem := t.mem }) ∧
    (3584 < bytes.length → transact s (.load bytes) = .ok (s, .err .loadError))

/-- For every well-formed instruction i (but SYS under SYS_POLICY = unknown) and any bytes after it
that fit, constructing the machine and loading i's two bytes and the rest gives a state at pc 0x200,
in mode Running, whose next step is exec of i with pc 0x202, then the commit. The mode Running after
construction is the spec's decision D19 (log 8), and the commit its decision D18 (log 28).
(70_reset_and_hazards.md section 2, 40_step_cycle.md section 1, 60_exceptions.md section 3,
92_eei_decisions.md D18, D19) -/
def Obligations.BootRunsTheLoadedProgram : Prop :=
  ∀ (p : Params) (i : Instr) (rest : List Byte), i.wellFormed = true →
    (p.sys = .unknown → ∀ nnn, i ≠ .sys nnn) → rest.length ≤ 3582 →
    ∃ s, transact (State.construct p) (.load (encodeBytes i ++ rest)) = .ok (s, .done) ∧
      s.pc = 0x200#16 ∧ s.mode = .running ∧
      step s = mapNext (fun t => { t with keysPrev := t.keys }) (exec i { s with pc := 0x202#16 })

/-- Every observation that is not refused leaves the whole state unchanged; is_set inside the screen
returns the pixel and is refused outside (D32); the snapshot has 2048 pixels with pixel (x, y) at 64
y + x; sound_active returns 1 exactly when ST > 0; inspection returns V[x], I, pc, DT, ST, the mode,
the depth sp, the top entry when sp > 0, the memory byte at an address below 4096, the stack entry
at a position below sp, dirty without clearing it, keys[k] or keys_prev[k]. Inspection of all but
the depth and the top entry is the spec's decision D27 (log 30); the reply none to a peek at sp = 0
(log 34) and the refusals of an entry from sp on (log 35) and of a byte from 4096 on (log 36) are
the model's own choices. (60_exceptions.md section 3, 92_eei_decisions.md D27, D32) -/
def Obligations.ObservationsChangeNothing : Prop :=
  ∀ (s : State) (px py : Nat) (q : Query),
    (px < 64 → py < 32 → transact s (.isSet px py) = .ok (s, .bit (pixel s.fb px py))) ∧
    ((64 ≤ px ∨ 32 ≤ py) → transact s (.isSet px py) = .error (.pixelOutOfRange px py)) ∧
    transact s .soundActive = .ok (s, .bit (decide (0 < s.st.toNat))) ∧
    (∃ ps, transact s .snapshot = .ok (s, .pixels ps) ∧ ps.length = 2048 ∧
      (px < 64 → py < 32 → ps.getD (64 * py + px) false = pixel s.fb px py)) ∧
    (∀ t r, transact s (.inspect q) = .ok (t, r) → t = s) ∧
    (∀ x, transact s (.inspect (.reg x)) = .ok (s, .byte (s.reg x))) ∧
    transact s (.inspect .index) = .ok (s, .word s.i) ∧ transact s (.inspect .pc) = .ok (s, .word s.pc) ∧
    transact s (.inspect .dt) = .ok (s, .byte s.dt) ∧ transact s (.inspect .st) = .ok (s, .byte s.st) ∧
    transact s (.inspect .mode) = .ok (s, .mode s.mode) ∧
    transact s (.inspect .depth) = .ok (s, .depth s.sp) ∧
    (0 < s.sp → ∃ w, s.stackEntry (s.sp - 1) = some w ∧
      transact s (.inspect .peek) = .ok (s, .top (some w))) ∧
    (s.sp = 0 → transact s (.inspect .peek) = .ok (s, .top none)) ∧
    (∀ a, a < 4096 → transact s (.inspect (.byte a)) = .ok (s, .byte (s.mem.read a))) ∧
    (∀ a, 4096 ≤ a → transact s (.inspect (.byte a)) = .error (.byteOutOfRange a)) ∧
    (∀ k, k < s.sp → ∃ w, s.stackEntry k = some w ∧ transact s (.inspect (.entry k)) = .ok (s, .word w)) ∧
    (∀ k, s.sp ≤ k → transact s (.inspect (.entry k)) = .error (.entryOutOfRange k)) ∧
    transact s (.inspect .dirty) = .ok (s, .bit s.dirty) ∧
    (∀ k, transact s (.inspect (.key k)) = .ok (s, .bit (s.key k))) ∧
    (∀ k, transact s (.inspect (.keyPrev k)) = .ok (s, .bit (s.keyPrev k)))
end

