-- ==== Sys2Proof/Laws/Decode.lean ====
section
/-! SUPPORT. The fields of a word built from its parts, format by format (30_encoding.md R81, R82): what
every proof about the decoder and the encoder rests on. -/

namespace Sys2Proof

/-- A concatenation as a number. -/
theorem toNat_cat {m n : Nat} (a : BitVec m) (b : BitVec n) :
    (a ++ b).toNat = a.toNat * 2 ^ n + b.toNat := by
  rw [BitVec.toNat_append, ← Nat.shiftLeft_add_eq_or_of_lt b.isLt, Nat.shiftLeft_eq]

/-- A field as a number. -/
theorem toNat_field {w : Nat} (b : BitVec w) (lo len : Nat) :
    (b.extractLsb' lo len).toNat = b.toNat / 2 ^ lo % 2 ^ len := by
  rw [BitVec.extractLsb'_toNat, Nat.shiftRight_eq_div_pow]

section
variable (op x y n : Nibble) (nn : Byte) (nnn : Addr)

@[simp] theorem opField_xyn : opField (op ++ x ++ y ++ n) = op := by
  apply BitVec.eq_of_toNat_eq
  have := op.isLt; have := x.isLt; have := y.isLt; have := n.isLt
  simp only [opField, toNat_field, toNat_cat]
  omega

@[simp] theorem xField_xyn : xField (op ++ x ++ y ++ n) = x := by
  apply BitVec.eq_of_toNat_eq
  have := op.isLt; have := x.isLt; have := y.isLt; have := n.isLt
  simp only [xField, toNat_field, toNat_cat]
  omega

@[simp] theorem yField_xyn : yField (op ++ x ++ y ++ n) = y := by
  apply BitVec.eq_of_toNat_eq
  have := op.isLt; have := x.isLt; have := y.isLt; have := n.isLt
  simp only [yField, toNat_field, toNat_cat]
  omega

@[simp] theorem nField_xyn : nField (op ++ x ++ y ++ n) = n := by
  apply BitVec.eq_of_toNat_eq
  have := op.isLt; have := x.isLt; have := y.isLt; have := n.isLt
  simp only [nField, toNat_field, toNat_cat]
  omega

@[simp] theorem opField_xnn : opField (op ++ x ++ nn) = op := by
  apply BitVec.eq_of_toNat_eq
  have := op.isLt; have := x.isLt; have := nn.isLt
  simp only [opField, toNat_field, toNat_cat]
  omega

@[simp] theorem xField_xnn : xField (op ++ x ++ nn) = x := by
  apply BitVec.eq_of_toNat_eq
  have := op.isLt; have := x.isLt; have := nn.isLt
  simp only [xField, toNat_field, toNat_cat]
  omega

@[simp] theorem nnField_xnn : nnField (op ++ x ++ nn) = nn := by
  apply BitVec.eq_of_toNat_eq
  have := op.isLt; have := x.isLt; have := nn.isLt
  simp only [nnField, toNat_field, toNat_cat]
  omega

@[simp] theorem opField_nnn : opField (op ++ nnn) = op := by
  apply BitVec.eq_of_toNat_eq
  have := op.isLt; have := nnn.isLt
  simp only [opField, toNat_field, toNat_cat]
  omega

@[simp] theorem nnnField_nnn : nnnField (op ++ nnn) = nnn := by
  apply BitVec.eq_of_toNat_eq
  have := op.isLt; have := nnn.isLt
  simp only [nnnField, toNat_field, toNat_cat]
  omega

/-- A word is its four nibbles. -/
theorem word_eq_xyn (w : Word) : (opField w ++ xField w ++ yField w ++ nField w : Word) = w := by
  apply BitVec.eq_of_toNat_eq
  have := w.isLt
  simp only [opField, xField, yField, nField, toNat_field, toNat_cat]
  omega

theorem word_eq_xnn (w : Word) : (opField w ++ xField w ++ nnField w : Word) = w := by
  apply BitVec.eq_of_toNat_eq
  have := w.isLt
  simp only [opField, xField, nnField, toNat_field, toNat_cat]
  omega

theorem word_eq_nnn (w : Word) : (opField w ++ nnnField w : Word) = w := by
  apply BitVec.eq_of_toNat_eq
  have := w.isLt
  simp only [opField, nnnField, toNat_field, toNat_cat]
  omega

end

/-- Two bytes in memory order make the word they came from (20_memory.md R63). -/
theorem wordOfBytes_bytes (w : Word) : wordOfBytes (w.extractLsb' 8 8) (w.extractLsb' 0 8) = w := by
  apply BitVec.eq_of_toNat_eq
  have := w.isLt
  simp only [wordOfBytes, toNat_field, toNat_cat]
  omega

/-! ## The opcode table's masks -/

/-- The mask of formats NNN, XNN and XYN keeps the leading nibble. -/
theorem and_mask_op (w : Word) : w &&& 0xF000#16 = (opField w ++ 0#12 : Word) := by
  refine BitVec.eq_of_getLsbD_eq fun i hi => ?_
  simp only [opField, BitVec.getLsbD_and, BitVec.getLsbD_append, BitVec.getLsbD_extractLsb']
  interval_cases i <;> simp

/-- The mask of format XYS keeps the leading and the trailing nibble. -/
theorem and_mask_xys (w : Word) : w &&& 0xF00F#16 = (opField w ++ 0#4 ++ 0#4 ++ nField w : Word) := by
  refine BitVec.eq_of_getLsbD_eq fun i hi => ?_
  simp only [opField, nField, BitVec.getLsbD_and, BitVec.getLsbD_append,
    BitVec.getLsbD_extractLsb']
  interval_cases i <;> simp

/-- The mask of format XSS keeps the leading nibble and the trailing byte. -/
theorem and_mask_xss (w : Word) : w &&& 0xF0FF#16 = (opField w ++ 0#4 ++ nnField w : Word) := by
  refine BitVec.eq_of_getLsbD_eq fun i hi => ?_
  simp only [opField, nnField, BitVec.getLsbD_and, BitVec.getLsbD_append,
    BitVec.getLsbD_extractLsb']
  interval_cases i <;> simp

/-- The sixteen values of a nibble. -/
theorem nibble_cases : ∀ op : Nibble,
    op = 0#4 ∨ op = 1#4 ∨ op = 2#4 ∨ op = 3#4 ∨ op = 4#4 ∨ op = 5#4 ∨ op = 6#4 ∨ op = 7#4 ∨
    op = 8#4 ∨ op = 9#4 ∨ op = 10#4 ∨ op = 11#4 ∨ op = 12#4 ∨ op = 13#4 ∨ op = 14#4 ∨ op =
    15#4 := by
  decide

/-- A row of formats NNN, XNN and XYN holds the words of its leading nibble. -/
theorem and_mask_op_eq_iff (w : Word) (k : Nibble) :
    w &&& 0xF000#16 = (k ++ 0#12 : Word) ↔ opField w = k := by
  rw [and_mask_op]
  constructor
  · intro h; simpa using congrArg opField h
  · rintro rfl; rfl

/-- A row of format XYS holds the words of its leading and trailing nibble. -/
theorem and_mask_xys_eq_iff (w : Word) (k n : Nibble) :
    w &&& 0xF00F#16 = (k ++ 0#4 ++ 0#4 ++ n : Word) ↔ opField w = k ∧ nField w = n := by
  rw [and_mask_xys]
  constructor
  · intro h; exact ⟨by simpa using congrArg opField h, by simpa using congrArg nField h⟩
  · rintro ⟨rfl, rfl⟩; rfl

/-- A row of format XSS holds the words of its leading nibble and trailing byte. -/
theorem and_mask_xss_eq_iff (w : Word) (k : Nibble) (n : Byte) :
    w &&& 0xF0FF#16 = (k ++ 0#4 ++ n : Word) ↔ opField w = k ∧ nnField w = n := by
  rw [and_mask_xss]
  constructor
  · intro h; exact ⟨by simpa using congrArg opField h, by simpa using congrArg nnField h⟩
  · rintro ⟨rfl, rfl⟩; rfl

/-- A word whose leading nibble is not 0 is neither CLS nor RET. -/
theorem word_ne_fixed (w : Word) (h : opField w ≠ 0#4) :
    w ≠ 0x00E0#16 ∧ w ≠ 0x00EE#16 :=
  ⟨fun e => h (e ▸ rfl), fun e => h (e ▸ rfl)⟩

/-- A word whose leading nibble is not 0 decodes by its family. -/
theorem decodeWord_of_op_ne (p : SysPolicy) (w : Word) (h : opField w ≠ 0#4) :
    decodeWord p w = decodeFamily p w := by
  rw [decodeWord, if_neg (word_ne_fixed w h).1, if_neg (word_ne_fixed w h).2]

/-- A word other than the two exact ones decodes by its family. -/
theorem decodeWord_of_ne (p : SysPolicy) (w : Word) (h1 : w ≠ 0x00E0#16) (h2 : w ≠ 0x00EE#16) :
    decodeWord p w = decodeFamily p w := by rw [decodeWord, if_neg h1, if_neg h2]

/-- SYS's word is neither CLS's nor RET's (R130). -/
theorem sys_word_ne_fixed (nnn : Addr) (h : Instr.wellFormed (.sys nnn) = true) :
    (0x0#4 ++ nnn : Word) ≠ 0x00E0#16 ∧ (0x0#4 ++ nnn : Word) ≠ 0x00EE#16 := by
  constructor <;> intro e <;> have e := congrArg nnnField e <;> rw [nnnField_nnn] at e <;> subst e <;>
    exact absurd h (by decide)

/-- The byte decoder on the two bytes of a word is the word decoder (R80). -/
theorem decodeBytes_bytesOfWord (p : SysPolicy) (w : Word) :
    decodeBytes p (bytesOfWord w) = match decodeWord p w with
      | .op i => .ok (i, [])
      | .unknown u => .error (.unknown u) := by
  cases h : decodeWord p w <;> simp [bytesOfWord, decodeBytes, wordOfBytes_bytes, h]

end Sys2Proof
end

