-- ==== Sys2Proof/Laws/Memory.lean ====
section
/-! SUPPORT. Read after write, the canonical form and what keeps it (20_memory.md R60, R68, R74). -/

namespace Sys2Proof.Machine

theorem Memory.read_of_absent (m : Memory) (a : Nat) (h : ∀ c ∈ m, c.1 ≠ a) :
    m.read a = resetByte a := by
  induction m with
  | nil => rfl
  | cons c m ih =>
    rw [Memory.read, if_neg (h c List.mem_cons_self)]
    exact ih fun d hd => h d (List.mem_cons_of_mem _ hd)

theorem Memory.read_filter_ne (m : Memory) {a x : Nat} (h : x ≠ a) :
    Memory.read (m.filter fun c => c.1 != a) x = m.read x := by
  induction m with
  | nil => rfl
  | cons c m ih =>
    by_cases hc : c.1 = a
    · rw [List.filter_cons_of_neg (by simp [hc]), ih, Memory.read, if_neg (by omega)]
    · rw [List.filter_cons_of_pos (by simp [hc]), Memory.read, Memory.read, ih]

theorem Memory.read_filter_self (m : Memory) (a : Nat) :
    Memory.read (m.filter fun c => c.1 != a) a = resetByte a :=
  Memory.read_of_absent _ _ fun c hc => by simpa using (List.mem_filter.1 hc).2

theorem Memory.read_insertCell_ne (m : Memory) {a x : Nat} (b : Byte) (h : x ≠ a) :
    Memory.read (Memory.insertCell a b m) x = m.read x := by
  induction m with
  | nil => simp [Memory.insertCell, Memory.read, Ne.symm h]
  | cons c m ih =>
    unfold Memory.insertCell
    split
    · rw [Memory.read, if_neg (Ne.symm h)]
    · rw [Memory.read, Memory.read, ih]

theorem Memory.read_insertCell_self (m : Memory) (a : Nat) (b : Byte) (h : ∀ c ∈ m, c.1 ≠ a) :
    Memory.read (Memory.insertCell a b m) a = b := by
  induction m with
  | nil => simp [Memory.insertCell, Memory.read]
  | cons c m ih =>
    unfold Memory.insertCell
    split
    · simp [Memory.read]
    · rw [Memory.read, if_neg (h c List.mem_cons_self)]
      exact ih fun d hd => h d (List.mem_cons_of_mem _ hd)

/-- The one law of a write, on any list: the byte written there, every other byte as before. -/
theorem Memory.read_write (m : Memory) (a x : Nat) (b : Byte) :
    (m.write a b).read x = if x = a then b else m.read x := by
  unfold Memory.write
  by_cases h : x = a
  · subst h
    simp only [if_pos]
    split
    · rename_i hb; rw [Memory.read_filter_self, hb]
    · exact Memory.read_insertCell_self _ _ _ fun c hc => by simpa using (List.mem_filter.1 hc).2
  · simp only [if_neg h]
    split
    · exact Memory.read_filter_ne m h
    · rw [Memory.read_insertCell_ne _ _ h, Memory.read_filter_ne m h]

@[simp] theorem Memory.read_write_self (m : Memory) (a : Nat) (b : Byte) :
    (m.write a b).read a = b := by simp [Memory.read_write]

theorem Memory.read_write_ne (m : Memory) {a x : Nat} (b : Byte) (h : x ≠ a) :
    (m.write a b).read x = m.read x := by simp [Memory.read_write, h]

@[simp] theorem Memory.writeAll_nil (m : Memory) : m.writeAll [] = m := rfl

@[simp] theorem Memory.writeAll_cons (m : Memory) (c : Nat × Byte) (cs : List (Nat × Byte)) :
    m.writeAll (c :: cs) = (m.write c.1 c.2).writeAll cs := rfl

/-- Bytes outside the cells written read as before. -/
theorem Memory.read_writeAll_of_absent (cs : List (Nat × Byte)) (m : Memory) (x : Nat)
    (h : ∀ c ∈ cs, c.1 ≠ x) : (m.writeAll cs).read x = m.read x := by
  induction cs generalizing m with
  | nil => rfl
  | cons c cs ih =>
    rw [Memory.writeAll_cons, ih _ fun d hd => h d (List.mem_cons_of_mem _ hd)]
    exact Memory.read_write_ne _ _ (Ne.symm (h c List.mem_cons_self))

/-- Cells at different addresses read as written. -/
theorem Memory.read_writeAll_of_mem (cs : List (Nat × Byte)) (m : Memory) (c : Nat × Byte)
    (hd : (cs.map Prod.fst).Nodup) (hc : c ∈ cs) : (m.writeAll cs).read c.1 = c.2 := by
  induction cs generalizing m with
  | nil => cases hc
  | cons d cs ih =>
    rw [List.map_cons, List.nodup_cons] at hd
    rw [Memory.writeAll_cons]
    rcases List.mem_cons.1 hc with rfl | hc
    · rw [Memory.read_writeAll_of_absent, Memory.read_write_self]
      exact fun e he h => hd.1 (h ▸ List.mem_map_of_mem he)
    · exact ih _ hd.2 hc

/-! ## The canonical form -/

theorem Memory.mem_insertCell {a : Nat} {b : Byte} {m : Memory} {c : Nat × Byte}
    (h : c ∈ Memory.insertCell a b m) : c = (a, b) ∨ c ∈ m := by
  induction m with
  | nil => simpa [Memory.insertCell] using h
  | cons d m ih =>
    unfold Memory.insertCell at h
    split at h
    · simpa using h
    · rcases List.mem_cons.1 h with rfl | h
      · exact .inr List.mem_cons_self
      · exact (ih h).imp_right (List.mem_cons_of_mem _)

theorem Memory.sorted_insertCell (m : Memory) (a : Nat) (b : Byte)
    (hs : m.Pairwise fun c d => c.1 < d.1) (hn : ∀ c ∈ m, c.1 ≠ a) :
    (Memory.insertCell a b m).Pairwise fun c d => c.1 < d.1 := by
  induction m with
  | nil => simp [Memory.insertCell]
  | cons c m ih =>
    rw [List.pairwise_cons] at hs
    have hca := hn c List.mem_cons_self
    unfold Memory.insertCell
    split
    · rename_i h
      refine List.pairwise_cons.2 ⟨fun d hd => ?_, List.pairwise_cons.2 hs⟩
      rcases List.mem_cons.1 hd with rfl | hd
      · exact h
      · exact Nat.lt_trans h (hs.1 d hd)
    · refine List.pairwise_cons.2
        ⟨fun d hd => ?_, ih hs.2 fun d hd => hn d (List.mem_cons_of_mem _ hd)⟩
      rcases Memory.mem_insertCell hd with rfl | hd
      · show c.1 < a; omega
      · exact hs.1 d hd

/-- A write inside [0, 4096) keeps the canonical form. -/
theorem Memory.wf_write {m : Memory} (h : m.wf) {a : Nat} (ha : a < Config.memSize) (b : Byte) :
    (m.write a b).wf := by
  have hs : (m.filter fun c => c.1 != a).Pairwise fun c d => c.1 < d.1 := h.1.filter _
  have hm : ∀ c ∈ m.filter (fun c => c.1 != a), c.1 < Config.memSize ∧ c.2 ≠ resetByte c.1 :=
    fun c hc => h.2 c (List.mem_filter.1 hc).1
  have hn : ∀ c ∈ m.filter (fun c => c.1 != a), c.1 ≠ a :=
    fun c hc => by simpa using (List.mem_filter.1 hc).2
  unfold Memory.write
  dsimp only
  split
  · exact ⟨hs, hm⟩
  · rename_i hb
    refine ⟨Memory.sorted_insertCell _ a b hs hn, fun c hc => ?_⟩
    rcases Memory.mem_insertCell hc with rfl | hc
    · exact ⟨ha, hb⟩
    · exact hm c hc

theorem Memory.wf_writeAll {m : Memory} (h : m.wf) (cs : List (Nat × Byte))
    (hc : ∀ c ∈ cs, c.1 < Config.memSize) : (m.writeAll cs).wf := by
  induction cs generalizing m with
  | nil => exact h
  | cons c cs ih =>
    exact ih (Memory.wf_write h (hc c List.mem_cons_self) c.2)
      fun d hd => hc d (List.mem_cons_of_mem _ hd)

/-- Two memories in canonical form that read the same everywhere are the same list. -/
theorem Memory.ext_of_wf {m n : Memory} (hm : m.wf) (hn : n.wf) (h : ∀ a, m.read a = n.read a) :
    m = n := by
  induction m generalizing n with
  | nil =>
    cases n with
    | nil => rfl
    | cons d n => exact absurd ((h d.1).symm.trans rfl |> fun e => by simpa [Memory.read] using e) (hn.2 d List.mem_cons_self).2
  | cons c m ih =>
    have hc := hm.2 c List.mem_cons_self
    have hml := (List.pairwise_cons.1 hm.1).1
    cases n with
    | nil => exact absurd (by simpa [Memory.read] using h c.1) hc.2
    | cons d n =>
      have hd := hn.2 d List.mem_cons_self
      have hnl := (List.pairwise_cons.1 hn.1).1
      have hcd : c.1 = d.1 := by
        rcases Nat.lt_trichotomy c.1 d.1 with hlt | heq | hgt
        · exfalso
          apply hc.2
          have := h c.1
          rw [Memory.read, if_pos rfl, Memory.read_of_absent] at this
          · exact this
          · intro e he
            rcases List.mem_cons.1 he with rfl | he
            · omega
            · have := hnl e he; omega
        · exact heq
        · exfalso
          apply hd.2
          have := h d.1
          rw [Memory.read_of_absent (c :: m), Memory.read, if_pos rfl] at this
          · exact this.symm
          · intro e he
            rcases List.mem_cons.1 he with rfl | he
            · omega
            · have := hml e he; omega
      have hb : c.2 = d.2 := by
        have := h c.1
        rwa [Memory.read, if_pos rfl, Memory.read, if_pos hcd.symm] at this
      have hcd' : c = d := Prod.ext hcd hb
      subst hcd'
      congr 1
      refine ih ⟨(List.pairwise_cons.1 hm.1).2, fun e he => hm.2 e (List.mem_cons_of_mem _ he)⟩
        ⟨(List.pairwise_cons.1 hn.1).2, fun e he => hn.2 e (List.mem_cons_of_mem _ he)⟩ fun a => ?_
      by_cases ha : c.1 = a
      · subst ha
        rw [Memory.read_of_absent m, Memory.read_of_absent n]
        · exact fun e he => Nat.ne_of_gt (hnl e he)
        · exact fun e he => Nat.ne_of_gt (hml e he)
      · have := h a
        rwa [Memory.read, if_neg ha, Memory.read, if_neg ha] at this

end Sys2Proof.Machine
end

