-- ==== Sys2Proof/Laws/State.lean ====
section
/-! SUPPORT. One lemma per field per update of State, and what each accessor reads after each update,
so that no later proof unfolds a record update. -/

namespace Sys2Proof.Machine

variable (s : State)

@[simp] theorem State.setReg_v (x : RegIdx) (b : Byte) : (s.setReg x b).v = s.v.set x.toNat b x.isLt := rfl
@[simp] theorem State.setReg_i (x : RegIdx) (b : Byte) : (s.setReg x b).i = s.i := rfl
@[simp] theorem State.setReg_pc (x : RegIdx) (b : Byte) : (s.setReg x b).pc = s.pc := rfl
@[simp] theorem State.setReg_stack (x : RegIdx) (b : Byte) : (s.setReg x b).stack = s.stack := rfl
@[simp] theorem State.setReg_dt (x : RegIdx) (b : Byte) : (s.setReg x b).dt = s.dt := rfl
@[simp] theorem State.setReg_st (x : RegIdx) (b : Byte) : (s.setReg x b).st = s.st := rfl
@[simp] theorem State.setReg_fb (x : RegIdx) (b : Byte) : (s.setReg x b).fb = s.fb := rfl
@[simp] theorem State.setReg_dirty (x : RegIdx) (b : Byte) : (s.setReg x b).dirty = s.dirty := rfl
@[simp] theorem State.setReg_mode (x : RegIdx) (b : Byte) : (s.setReg x b).mode = s.mode := rfl
@[simp] theorem State.setReg_keys (x : RegIdx) (b : Byte) : (s.setReg x b).keys = s.keys := rfl
@[simp] theorem State.setReg_keysPrev (x : RegIdx) (b : Byte) : (s.setReg x b).keysPrev = s.keysPrev := rfl
@[simp] theorem State.setReg_mem (x : RegIdx) (b : Byte) : (s.setReg x b).mem = s.mem := rfl
@[simp] theorem State.setReg_rngPending (x : RegIdx) (b : Byte) : (s.setReg x b).rngPending = s.rngPending := rfl
@[simp] theorem State.setReg_rngDrawn (x : RegIdx) (b : Byte) : (s.setReg x b).rngDrawn = s.rngDrawn := rfl
@[simp] theorem State.setReg_params (x : RegIdx) (b : Byte) : (s.setReg x b).params = s.params := rfl

@[simp] theorem State.setRegsFromV0_v (bs : List Byte) : (s.setRegsFromV0 bs).v = s.v.mapIdx fun j old => bs.getD j old := rfl
@[simp] theorem State.setRegsFromV0_i (bs : List Byte) : (s.setRegsFromV0 bs).i = s.i := rfl
@[simp] theorem State.setRegsFromV0_pc (bs : List Byte) : (s.setRegsFromV0 bs).pc = s.pc := rfl
@[simp] theorem State.setRegsFromV0_stack (bs : List Byte) : (s.setRegsFromV0 bs).stack = s.stack := rfl
@[simp] theorem State.setRegsFromV0_dt (bs : List Byte) : (s.setRegsFromV0 bs).dt = s.dt := rfl
@[simp] theorem State.setRegsFromV0_st (bs : List Byte) : (s.setRegsFromV0 bs).st = s.st := rfl
@[simp] theorem State.setRegsFromV0_fb (bs : List Byte) : (s.setRegsFromV0 bs).fb = s.fb := rfl
@[simp] theorem State.setRegsFromV0_dirty (bs : List Byte) : (s.setRegsFromV0 bs).dirty = s.dirty := rfl
@[simp] theorem State.setRegsFromV0_mode (bs : List Byte) : (s.setRegsFromV0 bs).mode = s.mode := rfl
@[simp] theorem State.setRegsFromV0_keys (bs : List Byte) : (s.setRegsFromV0 bs).keys = s.keys := rfl
@[simp] theorem State.setRegsFromV0_keysPrev (bs : List Byte) : (s.setRegsFromV0 bs).keysPrev = s.keysPrev := rfl
@[simp] theorem State.setRegsFromV0_mem (bs : List Byte) : (s.setRegsFromV0 bs).mem = s.mem := rfl
@[simp] theorem State.setRegsFromV0_rngPending (bs : List Byte) : (s.setRegsFromV0 bs).rngPending = s.rngPending := rfl
@[simp] theorem State.setRegsFromV0_rngDrawn (bs : List Byte) : (s.setRegsFromV0 bs).rngDrawn = s.rngDrawn := rfl
@[simp] theorem State.setRegsFromV0_params (bs : List Byte) : (s.setRegsFromV0 bs).params = s.params := rfl

@[simp] theorem State.setI_v (w : Word) : (s.setI w).v = s.v := rfl
@[simp] theorem State.setI_i (w : Word) : (s.setI w).i = w := rfl
@[simp] theorem State.setI_pc (w : Word) : (s.setI w).pc = s.pc := rfl
@[simp] theorem State.setI_stack (w : Word) : (s.setI w).stack = s.stack := rfl
@[simp] theorem State.setI_dt (w : Word) : (s.setI w).dt = s.dt := rfl
@[simp] theorem State.setI_st (w : Word) : (s.setI w).st = s.st := rfl
@[simp] theorem State.setI_fb (w : Word) : (s.setI w).fb = s.fb := rfl
@[simp] theorem State.setI_dirty (w : Word) : (s.setI w).dirty = s.dirty := rfl
@[simp] theorem State.setI_mode (w : Word) : (s.setI w).mode = s.mode := rfl
@[simp] theorem State.setI_keys (w : Word) : (s.setI w).keys = s.keys := rfl
@[simp] theorem State.setI_keysPrev (w : Word) : (s.setI w).keysPrev = s.keysPrev := rfl
@[simp] theorem State.setI_mem (w : Word) : (s.setI w).mem = s.mem := rfl
@[simp] theorem State.setI_rngPending (w : Word) : (s.setI w).rngPending = s.rngPending := rfl
@[simp] theorem State.setI_rngDrawn (w : Word) : (s.setI w).rngDrawn = s.rngDrawn := rfl
@[simp] theorem State.setI_params (w : Word) : (s.setI w).params = s.params := rfl

@[simp] theorem State.setPc_v (w : Word) : (s.setPc w).v = s.v := rfl
@[simp] theorem State.setPc_i (w : Word) : (s.setPc w).i = s.i := rfl
@[simp] theorem State.setPc_pc (w : Word) : (s.setPc w).pc = w := rfl
@[simp] theorem State.setPc_stack (w : Word) : (s.setPc w).stack = s.stack := rfl
@[simp] theorem State.setPc_dt (w : Word) : (s.setPc w).dt = s.dt := rfl
@[simp] theorem State.setPc_st (w : Word) : (s.setPc w).st = s.st := rfl
@[simp] theorem State.setPc_fb (w : Word) : (s.setPc w).fb = s.fb := rfl
@[simp] theorem State.setPc_dirty (w : Word) : (s.setPc w).dirty = s.dirty := rfl
@[simp] theorem State.setPc_mode (w : Word) : (s.setPc w).mode = s.mode := rfl
@[simp] theorem State.setPc_keys (w : Word) : (s.setPc w).keys = s.keys := rfl
@[simp] theorem State.setPc_keysPrev (w : Word) : (s.setPc w).keysPrev = s.keysPrev := rfl
@[simp] theorem State.setPc_mem (w : Word) : (s.setPc w).mem = s.mem := rfl
@[simp] theorem State.setPc_rngPending (w : Word) : (s.setPc w).rngPending = s.rngPending := rfl
@[simp] theorem State.setPc_rngDrawn (w : Word) : (s.setPc w).rngDrawn = s.rngDrawn := rfl
@[simp] theorem State.setPc_params (w : Word) : (s.setPc w).params = s.params := rfl

@[simp] theorem State.advance_v : (s.advance).v = s.v := rfl
@[simp] theorem State.advance_i : (s.advance).i = s.i := rfl
@[simp] theorem State.advance_pc : (s.advance).pc = s.pc + 2#16 := rfl
@[simp] theorem State.advance_stack : (s.advance).stack = s.stack := rfl
@[simp] theorem State.advance_dt : (s.advance).dt = s.dt := rfl
@[simp] theorem State.advance_st : (s.advance).st = s.st := rfl
@[simp] theorem State.advance_fb : (s.advance).fb = s.fb := rfl
@[simp] theorem State.advance_dirty : (s.advance).dirty = s.dirty := rfl
@[simp] theorem State.advance_mode : (s.advance).mode = s.mode := rfl
@[simp] theorem State.advance_keys : (s.advance).keys = s.keys := rfl
@[simp] theorem State.advance_keysPrev : (s.advance).keysPrev = s.keysPrev := rfl
@[simp] theorem State.advance_mem : (s.advance).mem = s.mem := rfl
@[simp] theorem State.advance_rngPending : (s.advance).rngPending = s.rngPending := rfl
@[simp] theorem State.advance_rngDrawn : (s.advance).rngDrawn = s.rngDrawn := rfl
@[simp] theorem State.advance_params : (s.advance).params = s.params := rfl

@[simp] theorem State.setDt_v (b : Byte) : (s.setDt b).v = s.v := rfl
@[simp] theorem State.setDt_i (b : Byte) : (s.setDt b).i = s.i := rfl
@[simp] theorem State.setDt_pc (b : Byte) : (s.setDt b).pc = s.pc := rfl
@[simp] theorem State.setDt_stack (b : Byte) : (s.setDt b).stack = s.stack := rfl
@[simp] theorem State.setDt_dt (b : Byte) : (s.setDt b).dt = b := rfl
@[simp] theorem State.setDt_st (b : Byte) : (s.setDt b).st = s.st := rfl
@[simp] theorem State.setDt_fb (b : Byte) : (s.setDt b).fb = s.fb := rfl
@[simp] theorem State.setDt_dirty (b : Byte) : (s.setDt b).dirty = s.dirty := rfl
@[simp] theorem State.setDt_mode (b : Byte) : (s.setDt b).mode = s.mode := rfl
@[simp] theorem State.setDt_keys (b : Byte) : (s.setDt b).keys = s.keys := rfl
@[simp] theorem State.setDt_keysPrev (b : Byte) : (s.setDt b).keysPrev = s.keysPrev := rfl
@[simp] theorem State.setDt_mem (b : Byte) : (s.setDt b).mem = s.mem := rfl
@[simp] theorem State.setDt_rngPending (b : Byte) : (s.setDt b).rngPending = s.rngPending := rfl
@[simp] theorem State.setDt_rngDrawn (b : Byte) : (s.setDt b).rngDrawn = s.rngDrawn := rfl
@[simp] theorem State.setDt_params (b : Byte) : (s.setDt b).params = s.params := rfl

@[simp] theorem State.setSt_v (b : Byte) : (s.setSt b).v = s.v := rfl
@[simp] theorem State.setSt_i (b : Byte) : (s.setSt b).i = s.i := rfl
@[simp] theorem State.setSt_pc (b : Byte) : (s.setSt b).pc = s.pc := rfl
@[simp] theorem State.setSt_stack (b : Byte) : (s.setSt b).stack = s.stack := rfl
@[simp] theorem State.setSt_dt (b : Byte) : (s.setSt b).dt = s.dt := rfl
@[simp] theorem State.setSt_st (b : Byte) : (s.setSt b).st = b := rfl
@[simp] theorem State.setSt_fb (b : Byte) : (s.setSt b).fb = s.fb := rfl
@[simp] theorem State.setSt_dirty (b : Byte) : (s.setSt b).dirty = s.dirty := rfl
@[simp] theorem State.setSt_mode (b : Byte) : (s.setSt b).mode = s.mode := rfl
@[simp] theorem State.setSt_keys (b : Byte) : (s.setSt b).keys = s.keys := rfl
@[simp] theorem State.setSt_keysPrev (b : Byte) : (s.setSt b).keysPrev = s.keysPrev := rfl
@[simp] theorem State.setSt_mem (b : Byte) : (s.setSt b).mem = s.mem := rfl
@[simp] theorem State.setSt_rngPending (b : Byte) : (s.setSt b).rngPending = s.rngPending := rfl
@[simp] theorem State.setSt_rngDrawn (b : Byte) : (s.setSt b).rngDrawn = s.rngDrawn := rfl
@[simp] theorem State.setSt_params (b : Byte) : (s.setSt b).params = s.params := rfl

@[simp] theorem State.setMode_v (m : Mode) : (s.setMode m).v = s.v := rfl
@[simp] theorem State.setMode_i (m : Mode) : (s.setMode m).i = s.i := rfl
@[simp] theorem State.setMode_pc (m : Mode) : (s.setMode m).pc = s.pc := rfl
@[simp] theorem State.setMode_stack (m : Mode) : (s.setMode m).stack = s.stack := rfl
@[simp] theorem State.setMode_dt (m : Mode) : (s.setMode m).dt = s.dt := rfl
@[simp] theorem State.setMode_st (m : Mode) : (s.setMode m).st = s.st := rfl
@[simp] theorem State.setMode_fb (m : Mode) : (s.setMode m).fb = s.fb := rfl
@[simp] theorem State.setMode_dirty (m : Mode) : (s.setMode m).dirty = s.dirty := rfl
@[simp] theorem State.setMode_mode (m : Mode) : (s.setMode m).mode = m := rfl
@[simp] theorem State.setMode_keys (m : Mode) : (s.setMode m).keys = s.keys := rfl
@[simp] theorem State.setMode_keysPrev (m : Mode) : (s.setMode m).keysPrev = s.keysPrev := rfl
@[simp] theorem State.setMode_mem (m : Mode) : (s.setMode m).mem = s.mem := rfl
@[simp] theorem State.setMode_rngPending (m : Mode) : (s.setMode m).rngPending = s.rngPending := rfl
@[simp] theorem State.setMode_rngDrawn (m : Mode) : (s.setMode m).rngDrawn = s.rngDrawn := rfl
@[simp] theorem State.setMode_params (m : Mode) : (s.setMode m).params = s.params := rfl

@[simp] theorem State.setScreen_v (f : Framebuffer) : (s.setScreen f).v = s.v := rfl
@[simp] theorem State.setScreen_i (f : Framebuffer) : (s.setScreen f).i = s.i := rfl
@[simp] theorem State.setScreen_pc (f : Framebuffer) : (s.setScreen f).pc = s.pc := rfl
@[simp] theorem State.setScreen_stack (f : Framebuffer) : (s.setScreen f).stack = s.stack := rfl
@[simp] theorem State.setScreen_dt (f : Framebuffer) : (s.setScreen f).dt = s.dt := rfl
@[simp] theorem State.setScreen_st (f : Framebuffer) : (s.setScreen f).st = s.st := rfl
@[simp] theorem State.setScreen_fb (f : Framebuffer) : (s.setScreen f).fb = f := rfl
@[simp] theorem State.setScreen_dirty (f : Framebuffer) : (s.setScreen f).dirty = true := rfl
@[simp] theorem State.setScreen_mode (f : Framebuffer) : (s.setScreen f).mode = s.mode := rfl
@[simp] theorem State.setScreen_keys (f : Framebuffer) : (s.setScreen f).keys = s.keys := rfl
@[simp] theorem State.setScreen_keysPrev (f : Framebuffer) : (s.setScreen f).keysPrev = s.keysPrev := rfl
@[simp] theorem State.setScreen_mem (f : Framebuffer) : (s.setScreen f).mem = s.mem := rfl
@[simp] theorem State.setScreen_rngPending (f : Framebuffer) : (s.setScreen f).rngPending = s.rngPending := rfl
@[simp] theorem State.setScreen_rngDrawn (f : Framebuffer) : (s.setScreen f).rngDrawn = s.rngDrawn := rfl
@[simp] theorem State.setScreen_params (f : Framebuffer) : (s.setScreen f).params = s.params := rfl

@[simp] theorem State.commitKeys_v : (s.commitKeys).v = s.v := rfl
@[simp] theorem State.commitKeys_i : (s.commitKeys).i = s.i := rfl
@[simp] theorem State.commitKeys_pc : (s.commitKeys).pc = s.pc := rfl
@[simp] theorem State.commitKeys_stack : (s.commitKeys).stack = s.stack := rfl
@[simp] theorem State.commitKeys_dt : (s.commitKeys).dt = s.dt := rfl
@[simp] theorem State.commitKeys_st : (s.commitKeys).st = s.st := rfl
@[simp] theorem State.commitKeys_fb : (s.commitKeys).fb = s.fb := rfl
@[simp] theorem State.commitKeys_dirty : (s.commitKeys).dirty = s.dirty := rfl
@[simp] theorem State.commitKeys_mode : (s.commitKeys).mode = s.mode := rfl
@[simp] theorem State.commitKeys_keys : (s.commitKeys).keys = s.keys := rfl
@[simp] theorem State.commitKeys_keysPrev : (s.commitKeys).keysPrev = s.keys := rfl
@[simp] theorem State.commitKeys_mem : (s.commitKeys).mem = s.mem := rfl
@[simp] theorem State.commitKeys_rngPending : (s.commitKeys).rngPending = s.rngPending := rfl
@[simp] theorem State.commitKeys_rngDrawn : (s.commitKeys).rngDrawn = s.rngDrawn := rfl
@[simp] theorem State.commitKeys_params : (s.commitKeys).params = s.params := rfl

@[simp] theorem State.setResultAndFlag_i (x : RegIdx) (r f : Byte) : (s.setResultAndFlag x r f).i = s.i := rfl
@[simp] theorem State.setResultAndFlag_pc (x : RegIdx) (r f : Byte) : (s.setResultAndFlag x r f).pc = s.pc := rfl
@[simp] theorem State.setResultAndFlag_stack (x : RegIdx) (r f : Byte) : (s.setResultAndFlag x r f).stack = s.stack := rfl
@[simp] theorem State.setResultAndFlag_dt (x : RegIdx) (r f : Byte) : (s.setResultAndFlag x r f).dt = s.dt := rfl
@[simp] theorem State.setResultAndFlag_st (x : RegIdx) (r f : Byte) : (s.setResultAndFlag x r f).st = s.st := rfl
@[simp] theorem State.setResultAndFlag_fb (x : RegIdx) (r f : Byte) : (s.setResultAndFlag x r f).fb = s.fb := rfl
@[simp] theorem State.setResultAndFlag_dirty (x : RegIdx) (r f : Byte) : (s.setResultAndFlag x r f).dirty = s.dirty := rfl
@[simp] theorem State.setResultAndFlag_mode (x : RegIdx) (r f : Byte) : (s.setResultAndFlag x r f).mode = s.mode := rfl
@[simp] theorem State.setResultAndFlag_keys (x : RegIdx) (r f : Byte) : (s.setResultAndFlag x r f).keys = s.keys := rfl
@[simp] theorem State.setResultAndFlag_keysPrev (x : RegIdx) (r f : Byte) : (s.setResultAndFlag x r f).keysPrev = s.keysPrev := rfl
@[simp] theorem State.setResultAndFlag_mem (x : RegIdx) (r f : Byte) : (s.setResultAndFlag x r f).mem = s.mem := rfl
@[simp] theorem State.setResultAndFlag_rngPending (x : RegIdx) (r f : Byte) : (s.setResultAndFlag x r f).rngPending = s.rngPending := rfl
@[simp] theorem State.setResultAndFlag_rngDrawn (x : RegIdx) (r f : Byte) : (s.setResultAndFlag x r f).rngDrawn = s.rngDrawn := rfl
@[simp] theorem State.setResultAndFlag_params (x : RegIdx) (r f : Byte) : (s.setResultAndFlag x r f).params = s.params := rfl

@[simp] theorem State.tickTimers_v : (s.tickTimers).v = s.v := rfl
@[simp] theorem State.tickTimers_i : (s.tickTimers).i = s.i := rfl
@[simp] theorem State.tickTimers_pc : (s.tickTimers).pc = s.pc := rfl
@[simp] theorem State.tickTimers_stack : (s.tickTimers).stack = s.stack := rfl
@[simp] theorem State.tickTimers_dt : (s.tickTimers).dt = tickDown s.dt := rfl
@[simp] theorem State.tickTimers_st : (s.tickTimers).st = tickDown s.st := rfl
@[simp] theorem State.tickTimers_fb : (s.tickTimers).fb = s.fb := rfl
@[simp] theorem State.tickTimers_dirty : (s.tickTimers).dirty = s.dirty := rfl
@[simp] theorem State.tickTimers_mode : (s.tickTimers).mode = s.mode := rfl
@[simp] theorem State.tickTimers_keys : (s.tickTimers).keys = s.keys := rfl
@[simp] theorem State.tickTimers_keysPrev : (s.tickTimers).keysPrev = s.keysPrev := rfl
@[simp] theorem State.tickTimers_mem : (s.tickTimers).mem = s.mem := rfl
@[simp] theorem State.tickTimers_rngPending : (s.tickTimers).rngPending = s.rngPending := rfl
@[simp] theorem State.tickTimers_rngDrawn : (s.tickTimers).rngDrawn = s.rngDrawn := rfl
@[simp] theorem State.tickTimers_params : (s.tickTimers).params = s.params := rfl

@[simp] theorem State.pressKey_v (k : KeyIdx) (p : Bool) : (s.pressKey k p).v = s.v := rfl
@[simp] theorem State.pressKey_i (k : KeyIdx) (p : Bool) : (s.pressKey k p).i = s.i := rfl
@[simp] theorem State.pressKey_pc (k : KeyIdx) (p : Bool) : (s.pressKey k p).pc = s.pc := rfl
@[simp] theorem State.pressKey_stack (k : KeyIdx) (p : Bool) : (s.pressKey k p).stack = s.stack := rfl
@[simp] theorem State.pressKey_dt (k : KeyIdx) (p : Bool) : (s.pressKey k p).dt = s.dt := rfl
@[simp] theorem State.pressKey_st (k : KeyIdx) (p : Bool) : (s.pressKey k p).st = s.st := rfl
@[simp] theorem State.pressKey_fb (k : KeyIdx) (p : Bool) : (s.pressKey k p).fb = s.fb := rfl
@[simp] theorem State.pressKey_dirty (k : KeyIdx) (p : Bool) : (s.pressKey k p).dirty = s.dirty := rfl
@[simp] theorem State.pressKey_mode (k : KeyIdx) (p : Bool) : (s.pressKey k p).mode = s.mode := rfl
@[simp] theorem State.pressKey_keys (k : KeyIdx) (p : Bool) : (s.pressKey k p).keys = s.keys.set k.toNat p k.isLt := rfl
@[simp] theorem State.pressKey_keysPrev (k : KeyIdx) (p : Bool) : (s.pressKey k p).keysPrev = s.keysPrev := rfl
@[simp] theorem State.pressKey_mem (k : KeyIdx) (p : Bool) : (s.pressKey k p).mem = s.mem := rfl
@[simp] theorem State.pressKey_rngPending (k : KeyIdx) (p : Bool) : (s.pressKey k p).rngPending = s.rngPending := rfl
@[simp] theorem State.pressKey_rngDrawn (k : KeyIdx) (p : Bool) : (s.pressKey k p).rngDrawn = s.rngDrawn := rfl
@[simp] theorem State.pressKey_params (k : KeyIdx) (p : Bool) : (s.pressKey k p).params = s.params := rfl

@[simp] theorem State.skipIf_v (c : Bool) : (s.skipIf c).v = s.v := by cases c <;> rfl
@[simp] theorem State.skipIf_i (c : Bool) : (s.skipIf c).i = s.i := by cases c <;> rfl
@[simp] theorem State.skipIf_pc (c : Bool) : (s.skipIf c).pc = if c then s.pc + 2#16 else s.pc := by
  cases c <;> rfl
@[simp] theorem State.skipIf_stack (c : Bool) : (s.skipIf c).stack = s.stack := by cases c <;> rfl
@[simp] theorem State.skipIf_dt (c : Bool) : (s.skipIf c).dt = s.dt := by cases c <;> rfl
@[simp] theorem State.skipIf_st (c : Bool) : (s.skipIf c).st = s.st := by cases c <;> rfl
@[simp] theorem State.skipIf_fb (c : Bool) : (s.skipIf c).fb = s.fb := by cases c <;> rfl
@[simp] theorem State.skipIf_dirty (c : Bool) : (s.skipIf c).dirty = s.dirty := by cases c <;> rfl
@[simp] theorem State.skipIf_mode (c : Bool) : (s.skipIf c).mode = s.mode := by cases c <;> rfl
@[simp] theorem State.skipIf_keys (c : Bool) : (s.skipIf c).keys = s.keys := by cases c <;> rfl
@[simp] theorem State.skipIf_keysPrev (c : Bool) : (s.skipIf c).keysPrev = s.keysPrev := by cases c <;> rfl
@[simp] theorem State.skipIf_mem (c : Bool) : (s.skipIf c).mem = s.mem := by cases c <;> rfl
@[simp] theorem State.skipIf_rngPending (c : Bool) : (s.skipIf c).rngPending = s.rngPending := by cases c <;> rfl
@[simp] theorem State.skipIf_rngDrawn (c : Bool) : (s.skipIf c).rngDrawn = s.rngDrawn := by cases c <;> rfl
@[simp] theorem State.skipIf_params (c : Bool) : (s.skipIf c).params = s.params := by cases c <;> rfl

/-! ## What the accessors read after an update -/

/-- A register read depends on the register file alone. -/
theorem State.reg_congr {s t : State} (h : t.v = s.v) (z : RegIdx) : t.reg z = s.reg z := by
  unfold State.reg; simp only [h]

theorem State.reg_setReg (x z : RegIdx) (b : Byte) :
    (s.setReg x b).reg z = if z = x then b else s.reg z := by
  simp only [State.reg, State.setReg_v, Vector.getElem_set, BitVec.toNat_inj, eq_comm]

@[simp] theorem State.reg_setReg_self (x : RegIdx) (b : Byte) : (s.setReg x b).reg x = b := by
  simp [State.reg_setReg]

theorem State.reg_setReg_ne {x z : RegIdx} (b : Byte) (h : z ≠ x) :
    (s.setReg x b).reg z = s.reg z := by simp [State.reg_setReg, h]

/-- The flag is the write that remains (R23). -/
@[simp] theorem State.reg_setResultAndFlag_vf (x : RegIdx) (r f : Byte) :
    (s.setResultAndFlag x r f).reg vf = f := by simp [State.setResultAndFlag]

theorem State.reg_setResultAndFlag (x z : RegIdx) (r f : Byte) :
    (s.setResultAndFlag x r f).reg z = if z = vf then f else if z = x then r else s.reg z := by
  simp only [State.setResultAndFlag, State.reg_setReg]

theorem State.reg_setRegsFromV0 (bs : List Byte) (z : RegIdx) :
    (s.setRegsFromV0 bs).reg z = bs.getD z.toNat (s.reg z) := by
  simp [State.reg]

/-- The register file after a register write, as a record update. -/
theorem State.setReg_eq (x : RegIdx) (b : Byte) :
    s.setReg x b = { s with v := (s.setReg x b).v } := rfl

theorem State.setResultAndFlag_eq (x : RegIdx) (r f : Byte) :
    s.setResultAndFlag x r f = { s with v := (s.setResultAndFlag x r f).v } := rfl

theorem State.setRegsFromV0_eq (bs : List Byte) :
    s.setRegsFromV0 bs = { s with v := (s.setRegsFromV0 bs).v } := rfl

@[simp] theorem State.key_pressKey (k j : KeyIdx) (p : Bool) :
    (s.pressKey k p).key j = if j = k then p else s.key j := by
  simp only [State.key, State.pressKey_keys, Vector.getElem_set, BitVec.toNat_inj, eq_comm]

/-- After the advance, `ia` is the old pc (R20, R112). -/
@[simp] theorem State.instrAddr_advance : s.advance.instrAddr = s.pc := by
  simp [State.instrAddr]

end Sys2Proof.Machine
end

