-- ==== Sys2Proof/Laws/Operands.lean ====
section
/-! SUPPORT. What each operand form and each flag is as a number (30_encoding.md R84, 42_alu.md R166 to
R170), and a register write in the terms claims use. -/

namespace Sys2Proof.Machine

/-- An address operand is its number (R84). -/
@[simp] theorem addrOperand_toNat (nnn : Addr) : (addrOperand nnn).toNat = nnn.toNat := by
  have := nnn.isLt
  simp only [addrOperand, BitVec.toNat_setWidth]
  omega

/-- The low nibble names the key (R251). -/
theorem keyOperand_eq (b : Byte) : keyOperand b = BitVec.ofNat 4 (b.toNat % 16) := by
  revert b; decide

/-- Where a glyph stands (R202). -/
theorem glyphAddr_toNat (b : Byte) : (glyphAddr b).toNat = 0x050 + 5 * (b.toNat % 16) := by
  revert b; decide

/-- The register of JP V0 under VX (R139). -/
theorem offsetReg_vx (nnn : Addr) : offsetReg .vx nnn = BitVec.ofNat 4 (nnn.toNat / 256) := by
  apply BitVec.eq_of_toNat_eq
  simp [offsetReg, Nat.shiftRight_eq_div_pow]

@[simp] theorem bcdDigits_length (b : Byte) : (bcdDigits b).length = 3 := rfl

/-- A key's index as a register value. -/
theorem keyByte_eq (k : KeyIdx) : keyByte k = BitVec.ofNat 8 k.toNat := by
  rw [keyByte, BitVec.ofNat_toNat]

theorem carry_eq (a b : Byte) : carry a b = if 255 < a.toNat + b.toNat then 1#8 else 0#8 := by
  simp [carry, flagByte]

theorem notBorrow_eq (a b : Byte) : notBorrow a b = if b.toNat ≤ a.toNat then 1#8 else 0#8 := by
  simp [notBorrow, flagByte]

theorem shiftedOutLow_eq (a : Byte) : shiftedOutLow a = BitVec.ofNat 8 (a.toNat % 2) := by
  revert a; decide

theorem shiftedOutHigh_eq (a : Byte) : shiftedOutHigh a = BitVec.ofNat 8 (a.toNat / 128) := by
  revert a; decide

/-- A register write changes that register alone. -/
theorem regWritten_setReg (s : State) (x : RegIdx) (b : Byte) : RegWritten s (s.setReg x b) x b :=
  ⟨State.reg_setReg_self s x b, fun _ hz => State.reg_setReg_ne s b hz, rfl⟩

/-- A result and its flag change V[x] and VF alone, the flag remaining (R23). -/
theorem resultAndFlag_setResultAndFlag (s : State) (x : RegIdx) (r f : Byte) :
    ResultAndFlag s (s.setResultAndFlag x r f) x r f := by
  refine ⟨State.reg_setResultAndFlag_vf s x r f, fun h => ?_, fun z h1 h2 => ?_, rfl⟩
  · rw [State.reg_setResultAndFlag, if_neg h, if_pos rfl]
  · rw [State.reg_setResultAndFlag, if_neg h2, if_neg h1]

/-- A skip changes pc alone. -/
theorem skipIf_eq (s : State) (c : Bool) :
    s.skipIf c = { s with pc := if c then s.pc + 2#16 else s.pc } := by cases c <;> rfl

end Sys2Proof.Machine
end

