-- ==== Sys2Proof/Laws/Ops.lean ====
section
/-! SUPPORT. One lemma per shared operation, saying once all it can do: the address check, byte reads
and stores, push and pop, the draw, the press edges, the framebuffer. -/

namespace Sys2Proof.Machine

/-! ## onOk, raise -/

@[simp] theorem onOk_ok {α : Type} (a : α) (k : α → Result) : onOk (.ok a) k = k a := rfl

@[simp] theorem onOk_error {α : Type} (e : Fault) (k : α → Result) :
    onOk (.error e : Except Fault α) k = .fault e := rfl

/-- A next state comes from a value. -/
theorem onOk_eq_next {α : Type} {r : Except Fault α} {k : α → Result} {t : State}
    (h : onOk r k = .next t) : ∃ a, r = .ok a ∧ k a = .next t := by
  cases r with
  | ok a => exact ⟨a, rfl, h⟩
  | error e => cases h

/-! ## The address check (R64, R65) -/

/-- The index an in-bounds access at a reaches. -/
abbrev effAddr (p : OobPolicy) (a : Nat) : Nat :=
  match p with
  | .fault => a
  | .wrap => a % Config.memSize

theorem resolve_of_lt (p : OobPolicy) {a : Nat} (h : a < Config.memSize) : resolve p a = .ok a := by
  simp [resolve, show a < 4096 from h]

@[simp] theorem resolve_wrap (a : Nat) : resolve .wrap a = .ok (a % Config.memSize) := by
  unfold resolve
  split
  · rename_i h; rw [Nat.mod_eq_of_lt h]
  · rfl

theorem resolve_fault_of_le {a : Nat} (h : Config.memSize ≤ a) :
    resolve .fault a = .error (.memoryOutOfBounds a) := by
  simp [resolve, show ¬ a < 4096 from Nat.not_lt.2 h]

/-- All the address check can answer. -/
theorem resolve_cases (p : OobPolicy) (a : Nat) :
    (∃ k, resolve p a = .ok k ∧ k < Config.memSize ∧ k = effAddr p a) ∨
    (p = .fault ∧ Config.memSize ≤ a ∧ resolve p a = .error (.memoryOutOfBounds a)) := by
  cases p with
  | wrap => exact .inl ⟨_, resolve_wrap a, Nat.mod_lt _ (by decide), rfl⟩
  | fault =>
    by_cases h : a < Config.memSize
    · exact .inl ⟨a, resolve_of_lt _ h, h, rfl⟩
    · exact .inr ⟨rfl, Nat.not_lt.1 h, resolve_fault_of_le (Nat.not_lt.1 h)⟩

/-- In bounds, the range check answers every index, ascending. -/
theorem resolveRange_of_inBounds (p : OobPolicy) (a n : Nat) (h : InBounds p a n) :
    resolveRange p a n = .ok ((List.range' a n).map (effAddr p)) := by
  induction n generalizing a with
  | zero => rfl
  | succ n ih =>
    have hn : InBounds p (a + 1) n := by
      rcases h with h | h | h
      · omega
      · exact .inr (.inl (by omega))
      · exact .inr (.inr h)
    have hr : resolve p a = .ok (effAddr p a) := by
      rcases h with h | h | rfl
      · omega
      · rw [resolve_of_lt p (by omega)]
        cases p with
        | fault => rfl
        | wrap => exact congrArg _ (Nat.mod_eq_of_lt (by omega)).symm
      · exact resolve_wrap a
    simp only [resolveRange, hr, ih _ hn, List.range'_succ, List.map_cons]

/-- Out of bounds, the range check answers the first address out of range (R65). -/
theorem resolveRange_of_not_inBounds (p : OobPolicy) (a n : Nat) (h : ¬ InBounds p a n) :
    resolveRange p a n = .error (.memoryOutOfBounds (firstOutside a)) := by
  induction n generalizing a with
  | zero => exact absurd (.inl rfl) h
  | succ n ih =>
    have hp : p = .fault := by
      cases p with
      | fault => rfl
      | wrap => exact absurd (.inr (.inr rfl)) h
    subst hp
    by_cases ha : a < Config.memSize
    · have hn : ¬ InBounds .fault (a + 1) n := by
        rintro (h0 | h0 | h0)
        · subst h0; exact h (.inr (.inl ha))
        · exact h (.inr (.inl (by omega)))
        · cases h0
      have hf : firstOutside (a + 1) = firstOutside a := by
        simp only [firstOutside, Config.memSize] at ha ⊢; omega
      simp only [resolveRange, resolve_of_lt _ ha, ih _ hn, hf]
    · have ha' := Nat.not_lt.1 ha
      simp only [resolveRange, resolve_fault_of_le ha', firstOutside, Nat.max_eq_left ha']

/-- Every index the range check answers is inside memory. -/
theorem resolveRange_lt {p : OobPolicy} {a n : Nat} {ks : List Nat}
    (h : resolveRange p a n = .ok ks) : ∀ k ∈ ks, k < Config.memSize := by
  induction n generalizing a ks with
  | zero => simp only [resolveRange, Except.ok.injEq] at h; subst h; simp
  | succ n ih =>
    simp only [resolveRange] at h
    rcases resolve_cases p a with ⟨k, hk, hlt, -⟩ | ⟨-, -, hk⟩
    · rw [hk] at h
      cases hr : resolveRange p (a + 1) n with
      | error e => rw [hr] at h; cases h
      | ok ks' =>
        rw [hr] at h
        simp only [Except.ok.injEq] at h
        subst h
        intro j hj
        rcases List.mem_cons.1 hj with rfl | hj
        · exact hlt
        · exact ih hr j hj
    · rw [hk] at h; cases h

theorem effAddr_lt (p : OobPolicy) {a n k : Nat} (h : InBounds p a n) (hk : k < n) :
    effAddr p (a + k) < Config.memSize := by
  rcases h with h | h | rfl
  · omega
  · cases p with
    | fault => show a + k < _; omega
    | wrap => exact Nat.mod_lt _ (by decide)
  · exact Nat.mod_lt _ (by decide)

/-- In bounds, every access reaches its index. -/
theorem resolve_of_inBounds {p : OobPolicy} {a n k : Nat} (h : InBounds p a n) (hk : k < n) :
    resolve p (a + k) = .ok (effAddr p (a + k)) := by
  rcases h with h | h | rfl
  · omega
  · rw [resolve_of_lt _ (by omega)]
    cases p with
    | fault => rfl
    | wrap => exact congrArg _ (Nat.mod_eq_of_lt (by omega)).symm
  · exact resolve_wrap _

theorem eq_effAddr_of_resolve {p : OobPolicy} {a n k b : Nat} (h : InBounds p a n) (hk : k < n)
    (hb : resolve p (a + k) = .ok b) : b = effAddr p (a + k) := by
  rw [resolve_of_inBounds h hk] at hb; cases hb; rfl

/-- Only OOB_POLICY = fault has accesses out of bounds. -/
theorem oob_of_not_inBounds {p : OobPolicy} {a n : Nat} (h : ¬ InBounds p a n) : p = .fault := by
  cases p with
  | fault => rfl
  | wrap => exact absurd (.inr (.inr rfl)) h

/-- The indices of up to 4096 accesses in bounds are all different. -/
theorem effAddr_nodup (p : OobPolicy) (a n : Nat) (h : InBounds p a n) (hn : n ≤ Config.memSize) :
    ((List.range' a n).map (effAddr p)).Nodup := by
  refine List.Nodup.map_on ?_ List.nodup_range'
  intro x hx y hy hxy
  rw [List.mem_range'_1] at hx hy
  cases p with
  | fault => exact hxy
  | wrap =>
    simp only [effAddr, Config.memSize] at hxy hn
    omega

/-! ## Byte reads and stores (R67, R68, R204) -/

theorem memRead_of_lt (s : State) {a : Nat} (h : a < Config.memSize) :
    memRead s a = .ok (s.mem.read a) := by simp [memRead, resolve_of_lt _ h]

/-- The one error of a one-byte read. -/
theorem memRead_eq_error {s : State} {a : Nat} {e : Fault} (h : memRead s a = .error e) :
    e = .memoryOutOfBounds a ∧ Config.memSize ≤ a ∧ s.params.oob = .fault := by
  unfold memRead at h
  rcases resolve_cases s.params.oob a with ⟨k, hk, -⟩ | ⟨h1, h2, hk⟩
  · rw [hk] at h; cases h
  · rw [hk] at h; cases h; exact ⟨rfl, h2, h1⟩

theorem readBytes_of_inBounds (s : State) (a n : Nat) (h : InBounds s.params.oob a n) :
    readBytes s a n = .ok ((List.range' a n).map fun k => s.mem.read (effAddr s.params.oob k)) := by
  simp only [readBytes, resolveRange_of_inBounds _ _ _ h, List.map_map]
  rfl

theorem readBytes_of_not_inBounds (s : State) (a n : Nat) (h : ¬ InBounds s.params.oob a n) :
    readBytes s a n = .error (.memoryOutOfBounds (firstOutside a)) := by
  simp only [readBytes, resolveRange_of_not_inBounds _ _ _ h]

/-- The memory after a store in bounds. -/
def storedMem (s : State) (a : Nat) (bs : List Byte) : Memory :=
  s.mem.writeAll (((List.range' a bs.length).map (effAddr s.params.oob)).zip bs)

theorem writeBytes_of_inBounds (s : State) (a : Nat) (bs : List Byte)
    (h : InBounds s.params.oob a bs.length) :
    writeBytes s a bs = .ok { s with mem := storedMem s a bs } := by
  simp only [writeBytes, resolveRange_of_inBounds _ _ _ h, storedMem]

theorem writeBytes_of_not_inBounds (s : State) (a : Nat) (bs : List Byte)
    (h : ¬ InBounds s.params.oob a bs.length) :
    writeBytes s a bs = .error (.memoryOutOfBounds (firstOutside a)) := by
  simp only [writeBytes, resolveRange_of_not_inBounds _ _ _ h]

/-- A store answers a state that differs in memory alone, and keeps its canonical form. -/
theorem writeBytes_eq_ok {s t : State} {a : Nat} {bs : List Byte} (h : writeBytes s a bs = .ok t) :
    t = { s with mem := t.mem } ∧ (s.mem.wf → t.mem.wf) := by
  unfold writeBytes at h
  cases hr : resolveRange s.params.oob a bs.length with
  | error e => rw [hr] at h; cases h
  | ok ks =>
    rw [hr] at h
    simp only [Except.ok.injEq] at h
    subst h
    exact ⟨rfl, fun hw => Memory.wf_writeAll hw _ fun c hc =>
      resolveRange_lt hr c.1 (List.of_mem_zip hc).1⟩

theorem storedMem_read_outside (s : State) (a : Nat) (bs : List Byte) (x : Nat)
    (h : ∀ k < bs.length, effAddr s.params.oob (a + k) ≠ x) :
    (storedMem s a bs).read x = s.mem.read x := by
  refine Memory.read_writeAll_of_absent _ _ _ fun c hc => ?_
  have hc := (List.of_mem_zip hc).1
  obtain ⟨j, hj, hje⟩ := List.mem_map.1 hc
  rw [List.mem_range'_1] at hj
  rw [← hje]
  have := h (j - a) (by omega)
  rwa [show a + (j - a) = j by omega] at this

theorem storedMem_read_stored (s : State) (a : Nat) (bs : List Byte) (k : Nat) (hk : k < bs.length)
    (h : InBounds s.params.oob a bs.length) (hn : bs.length ≤ Config.memSize) :
    (storedMem s a bs).read (effAddr s.params.oob (a + k)) = bs[k] := by
  refine Memory.read_writeAll_of_mem _ _ (effAddr s.params.oob (a + k), bs[k]) ?_ ?_
  · rw [List.map_fst_zip (by simp)]
    exact effAddr_nodup _ _ _ h hn
  · rw [List.mem_iff_getElem]
    exact ⟨k, by simpa using hk, by simp [List.getElem_zip]⟩

/-- V0 to V[x]: x + 1 bytes (R206). -/
@[simp] theorem State.regsUpTo_length (s : State) (x : RegIdx) :
    (s.regsUpTo x).length = x.toNat + 1 := by
  have := x.isLt
  simp [State.regsUpTo]
  omega

theorem State.regsUpTo_getElem (s : State) (x z : RegIdx) (h : z.toNat ≤ x.toNat) :
    (s.regsUpTo x)[z.toNat]'(by rw [State.regsUpTo_length]; omega) = s.reg z := by
  simp [State.regsUpTo, State.reg]

/-! ## The stack (R30, R31) -/

theorem push_of_room (s : State) (w : Word) (h : s.stack.length < Config.stackDepth) :
    push s w = .ok { s with stack := w :: s.stack } := by
  simp [push, State.sp, show ¬ 16 ≤ s.stack.length from Nat.not_le.2 h]

theorem push_of_full (s : State) (w : Word) (h : Config.stackDepth ≤ s.stack.length) :
    push s w = .error .stackOverflow := by
  simp [push, State.sp, show 16 ≤ s.stack.length from h]

theorem push_eq_ok {s t : State} {w : Word} (h : push s w = .ok t) :
    s.stack.length < Config.stackDepth ∧ t = { s with stack := w :: s.stack } := by
  by_cases hs : s.stack.length < Config.stackDepth
  · rw [push_of_room s w hs, Except.ok.injEq] at h; exact ⟨hs, h.symm⟩
  · rw [push_of_full s w (Nat.not_lt.1 hs)] at h; cases h

/-- Every position below the depth holds an entry, and none from the depth on does (R29). -/
theorem stackEntry_of_lt {s : State} {k : Nat} (hk : k < s.sp) : ∃ w, s.stackEntry k = some w :=
  ⟨_, List.getElem?_eq_getElem (by simpa [State.sp] using hk)⟩

theorem stackEntry_of_le {s : State} {k : Nat} (hk : s.sp ≤ k) : s.stackEntry k = none :=
  List.getElem?_eq_none (by simpa [State.sp] using hk)

theorem stackEntry_top {s t : State} {w : Word} (h : t.stack = w :: s.stack) :
    t.stackEntry s.sp = some w := by simp [State.stackEntry, State.sp, h]

theorem stackEntry_below {s t : State} {w : Word} (h : t.stack = w :: s.stack) {k : Nat}
    (hk : k < s.sp) : t.stackEntry k = s.stackEntry k := by
  simp [State.stackEntry, h, List.getElem?_append_left, show k < s.stack.length from hk]

theorem pop_eq_ok {s : State} {r : Word × State} (h : pop s = .ok r) :
    s.stack = r.1 :: r.2.stack ∧ r.2 = { s with stack := r.2.stack } := by
  unfold pop at h
  split at h
  · cases h
  · rename_i w rest hs
    simp only [Except.ok.injEq] at h
    subst h
    exact ⟨hs, rfl⟩

/-! ## The draw (R250) -/

/-- A draw changes the random source's fields alone. -/
theorem draw8_state (s : State) :
    (draw8 s).2 = { s with rngPending := (draw8 s).2.rngPending, rngDrawn := (draw8 s).2.rngDrawn } := by
  unfold draw8
  split <;> rfl

theorem draw8_pending (s : State) {b : Byte} {rest : List Byte} (h : s.rngPending = b :: rest) :
    draw8 s = (b, { s with rngPending := rest }) := by simp [draw8, h]

theorem draw8_free (s : State) (h : s.rngPending = []) :
    draw8 s = (Config.freeDraw s.rngDrawn, { s with rngDrawn := s.rngDrawn + 1 }) := by
  simp [draw8, h]

/-! ## Press edges (R117, R118) -/

theorem mem_allKeys (k : KeyIdx) : k ∈ allKeys := by
  revert k; decide

theorem mem_pressEdges (s : State) (k : KeyIdx) :
    k ∈ s.pressEdges ↔ s.key k = true ∧ s.keyPrev k = false := by
  simp [State.pressEdges, mem_allKeys]

/-- No first edge: the set is empty. -/
theorem firstEdge_eq_none (s : State) :
    s.firstEdge = none ↔ ∀ k, ¬ (s.key k = true ∧ s.keyPrev k = false) := by
  rw [State.firstEdge, List.head?_eq_none_iff, List.eq_nil_iff_forall_not_mem]
  exact forall_congr' fun k => not_congr (mem_pressEdges s k)

theorem allKeys_sorted : allKeys.Pairwise (· < ·) := by decide

/-- The first edge is the least element of the set. -/
theorem firstEdge_eq_some {s : State} {k : KeyIdx} (h : s.firstEdge = some k) :
    (s.key k = true ∧ s.keyPrev k = false) ∧
      ∀ j, s.key j = true → s.keyPrev j = false → k ≤ j := by
  obtain ⟨rest, hr⟩ : ∃ rest, s.pressEdges = k :: rest := by
    unfold State.firstEdge at h
    cases hp : s.pressEdges with
    | nil => rw [hp] at h; cases h
    | cons a l => rw [hp] at h; cases h; exact ⟨l, rfl⟩
  have hs : (k :: rest).Pairwise (· < ·) := hr ▸ allKeys_sorted.filter _
  refine ⟨(mem_pressEdges s k).1 (hr ▸ List.mem_cons_self), fun j h1 h2 => ?_⟩
  have hj : j ∈ k :: rest := hr ▸ (mem_pressEdges s j).2 ⟨h1, h2⟩
  rcases List.mem_cons.1 hj with rfl | hj
  · exact BitVec.le_refl _
  · exact BitVec.le_of_lt ((List.pairwise_cons.1 hs).1 j hj)

/-- The least key with a press edge is the first edge. -/
theorem firstEdge_of_least {s : State} {k : KeyIdx} (h1 : s.key k = true) (h2 : s.keyPrev k = false)
    (h3 : ∀ j, s.key j = true → s.keyPrev j = false → k ≤ j) : s.firstEdge = some k := by
  cases hf : s.firstEdge with
  | none => exact absurd ⟨h1, h2⟩ ((firstEdge_eq_none s).1 hf k)
  | some j =>
    have hj := firstEdge_eq_some hf
    rw [BitVec.le_antisymm (hj.2 k h1 h2) (h3 j hj.1.1 hj.1.2)]

/-! ## The framebuffer (R231 to R233) -/

theorem pixel_of_lt (fb : Framebuffer) {x y : Nat} (hx : x < 64) (hy : y < 32) :
    pixel fb x y = fb[y][x] := by
  simp [pixel, hx, hy]

/-- Two framebuffers with the same pixels are the same. -/
theorem framebuffer_ext {f g : Framebuffer}
    (h : ∀ x y, x < 64 → y < 32 → pixel f x y = pixel g x y) : f = g := by
  refine Vector.ext fun y hy => Vector.ext fun x hx => ?_
  rw [← pixel_of_lt f hx hy, ← pixel_of_lt g hx hy]
  exact h x y hx hy

theorem pixel_blankScreen (x y : Nat) : pixel blankScreen x y = false := by
  by_cases hy : y < 32
  · by_cases hx : x < 64
    · simp [pixel_of_lt _ hx hy, blankScreen]
    · simp [pixel, blankScreen, hy, hx]
  · simp [pixel, blankScreen, hy]

theorem pixel_xorPixels (fb : Framebuffer) (ps : List (Nat × Nat)) {x y : Nat} (hx : x < 64)
    (hy : y < 32) : pixel (xorPixels fb ps) x y = (pixel fb x y ^^ ps.contains (x, y)) := by
  simp [pixel_of_lt _ hx hy, xorPixels]

/-- A pixel that is on is on the screen. -/
theorem pixel_inside {fb : Framebuffer} {x y : Nat} (h : pixel fb x y = true) : x < 64 ∧ y < 32 := by
  unfold pixel at h
  by_cases hy : y < 32
  · by_cases hx : x < 64
    · exact ⟨hx, hy⟩
    · simp [hy, hx] at h
  · simp [hy] at h

@[simp] theorem xorPixels_nil (fb : Framebuffer) : xorPixels fb [] = fb :=
  framebuffer_ext fun x y hx hy => by rw [pixel_xorPixels _ _ hx hy]; simp

/-- Disjoint sets of pixels flip one after the other or together. -/
theorem xorPixels_append (fb : Framebuffer) (ps qs : List (Nat × Nat)) (h : ∀ p ∈ ps, p ∉ qs) :
    xorPixels (xorPixels fb ps) qs = xorPixels fb (ps ++ qs) := by
  refine framebuffer_ext fun x y hx hy => ?_
  simp only [pixel_xorPixels _ _ hx hy]
  by_cases ha : (x, y) ∈ ps
  · simp [ha, h _ ha]
  · simp [ha]

/-- Which pixels a row byte places (R232, R233). -/
theorem mem_placedRow (x0 y : Nat) (row : Byte) (px py : Nat) :
    (px, py) ∈ placedRow x0 y row ↔
      py = y ∧ py < 32 ∧ px < 64 ∧ x0 ≤ px ∧ px < x0 + 8 ∧ row.getLsbD (7 - (px - x0)) = true := by
  simp only [placedRow, List.mem_map, List.mem_filter, List.mem_range, Bool.and_eq_true,
    decide_eq_true_eq, Prod.mk.injEq]
  simp only [Config.dispW, Config.dispH]
  constructor
  · rintro ⟨b, ⟨hb, ⟨hbit, hx⟩, hy⟩, rfl, rfl⟩
    exact ⟨rfl, hy, hx, by omega, by omega, by rwa [show x0 + b - x0 = b by omega]⟩
  · rintro ⟨rfl, hy, hx, h1, h2, hbit⟩
    exact ⟨px - x0, ⟨by omega, ⟨hbit, by omega⟩, hy⟩, by omega, rfl⟩

/-- Which pixels a sprite places: those of its rows, on the screen, whose bit is 1 (R232, R233). -/
theorem mem_placed (rows : List Byte) (x0 y0 px py : Nat) :
    (px, py) ∈ placed x0 y0 rows ↔
      py < 32 ∧ px < 64 ∧ x0 ≤ px ∧ px < x0 + 8 ∧ y0 ≤ py ∧
        ∃ row, rows[py - y0]? = some row ∧ row.getLsbD (7 - (px - x0)) = true := by
  induction rows generalizing y0 with
  | nil => simp [placed]
  | cons row rows ih =>
    rw [placed, List.mem_append, mem_placedRow, ih]
    by_cases hy : py = y0
    · subst hy
      constructor
      · rintro (⟨-, h1, h2, h3, h4, h5⟩ | ⟨-, -, -, -, h, -⟩)
        · exact ⟨h1, h2, h3, h4, by omega, row, by simp, h5⟩
        · omega
      · rintro ⟨h1, h2, h3, h4, -, r, hr, h5⟩
        simp at hr
        subst hr
        exact .inl ⟨rfl, h1, h2, h3, h4, h5⟩
    · constructor
      · rintro (⟨h, -⟩ | ⟨h1, h2, h3, h4, h5, r, hr, h6⟩)
        · exact absurd h hy
        · refine ⟨h1, h2, h3, h4, by omega, r, ?_, h6⟩
          rwa [show py - y0 = (py - (y0 + 1)) + 1 by omega, List.getElem?_cons_succ]
      · rintro ⟨h1, h2, h3, h4, h5, r, hr, h6⟩
        refine .inr ⟨h1, h2, h3, h4, by omega, r, ?_, h6⟩
        rwa [show py - y0 = (py - (y0 + 1)) + 1 by omega, List.getElem?_cons_succ] at hr

theorem collides_iff (fb : Framebuffer) (ps : List (Nat × Nat)) :
    collides fb ps = true ↔ ∃ p ∈ ps, pixel fb p.1 p.2 = true := by
  simp [collides]

/-- Pixels flipped elsewhere make no collision. -/
theorem collides_xorPixels (fb : Framebuffer) (ps qs : List (Nat × Nat)) (h : ∀ p ∈ ps, p ∉ qs)
    (hq : ∀ p ∈ qs, p.1 < 64 ∧ p.2 < 32) : collides (xorPixels fb ps) qs = collides fb qs := by
  rw [Bool.eq_iff_iff, collides_iff, collides_iff]
  refine exists_congr fun p => and_congr_right fun hp => ?_
  rw [pixel_xorPixels _ _ (hq p hp).1 (hq p hp).2]
  have hA : p ∉ ps := fun ha => h p ha hp
  simp [hA]

end Sys2Proof.Machine
end

