-- ==== Sys2Proof/Laws/PerInstr.lean ====
section
/-! SUPPORT. The family EncodedRow, one lemma per constructor of Instr: the word the encoder gives lies
in the row the opcode table gives that instruction (30_encoding.md section 6), if it is well formed. -/

namespace Sys2Proof.Laws.EncodedRow

/-- The encoded word is in the instruction's row of the opcode table. -/
def Statement (i : Instr) : Prop := i.wellFormed = true → i.row.matchesWord (encode i) = true

theorem sys (nnn : Addr) : Statement (.sys nnn) := fun h => by
  simp only [OpcodeRow.matchesWord, encode, Instr.row, and_mask_op]
  simp [sys_word_ne_fixed nnn h]

theorem cls : Statement .cls := fun _ => rfl

theorem ret : Statement .ret := fun _ => rfl

theorem jp (nnn : Addr) : Statement (.jp nnn) := fun _ => by
  simp only [OpcodeRow.matchesWord, encode, Instr.row, and_mask_op]; simp

theorem call (nnn : Addr) : Statement (.call nnn) := fun _ => by
  simp only [OpcodeRow.matchesWord, encode, Instr.row, and_mask_op]; simp

theorem seImm (x : RegIdx) (nn : Byte) : Statement (.seImm x nn) := fun _ => by
  simp only [OpcodeRow.matchesWord, encode, Instr.row, and_mask_op]; simp

theorem sneImm (x : RegIdx) (nn : Byte) : Statement (.sneImm x nn) := fun _ => by
  simp only [OpcodeRow.matchesWord, encode, Instr.row, and_mask_op]; simp

theorem seReg (x : RegIdx) (y : RegIdx) : Statement (.seReg x y) := fun _ => by
  simp only [OpcodeRow.matchesWord, encode, Instr.row, and_mask_xys]; simp

theorem ldImm (x : RegIdx) (nn : Byte) : Statement (.ldImm x nn) := fun _ => by
  simp only [OpcodeRow.matchesWord, encode, Instr.row, and_mask_op]; simp

theorem addImm (x : RegIdx) (nn : Byte) : Statement (.addImm x nn) := fun _ => by
  simp only [OpcodeRow.matchesWord, encode, Instr.row, and_mask_op]; simp

theorem ldReg (x : RegIdx) (y : RegIdx) : Statement (.ldReg x y) := fun _ => by
  simp only [OpcodeRow.matchesWord, encode, Instr.row, and_mask_xys]; simp

theorem orReg (x : RegIdx) (y : RegIdx) : Statement (.orReg x y) := fun _ => by
  simp only [OpcodeRow.matchesWord, encode, Instr.row, and_mask_xys]; simp

theorem andReg (x : RegIdx) (y : RegIdx) : Statement (.andReg x y) := fun _ => by
  simp only [OpcodeRow.matchesWord, encode, Instr.row, and_mask_xys]; simp

theorem xorReg (x : RegIdx) (y : RegIdx) : Statement (.xorReg x y) := fun _ => by
  simp only [OpcodeRow.matchesWord, encode, Instr.row, and_mask_xys]; simp

theorem addReg (x : RegIdx) (y : RegIdx) : Statement (.addReg x y) := fun _ => by
  simp only [OpcodeRow.matchesWord, encode, Instr.row, and_mask_xys]; simp

theorem subReg (x : RegIdx) (y : RegIdx) : Statement (.subReg x y) := fun _ => by
  simp only [OpcodeRow.matchesWord, encode, Instr.row, and_mask_xys]; simp

theorem shr (x : RegIdx) (y : RegIdx) : Statement (.shr x y) := fun _ => by
  simp only [OpcodeRow.matchesWord, encode, Instr.row, and_mask_xys]; simp

theorem subnReg (x : RegIdx) (y : RegIdx) : Statement (.subnReg x y) := fun _ => by
  simp only [OpcodeRow.matchesWord, encode, Instr.row, and_mask_xys]; simp

theorem shl (x : RegIdx) (y : RegIdx) : Statement (.shl x y) := fun _ => by
  simp only [OpcodeRow.matchesWord, encode, Instr.row, and_mask_xys]; simp

theorem sneReg (x : RegIdx) (y : RegIdx) : Statement (.sneReg x y) := fun _ => by
  simp only [OpcodeRow.matchesWord, encode, Instr.row, and_mask_xys]; simp

theorem ldI (nnn : Addr) : Statement (.ldI nnn) := fun _ => by
  simp only [OpcodeRow.matchesWord, encode, Instr.row, and_mask_op]; simp

theorem jpV0 (nnn : Addr) : Statement (.jpV0 nnn) := fun _ => by
  simp only [OpcodeRow.matchesWord, encode, Instr.row, and_mask_op]; simp

theorem rnd (x : RegIdx) (nn : Byte) : Statement (.rnd x nn) := fun _ => by
  simp only [OpcodeRow.matchesWord, encode, Instr.row, and_mask_op]; simp

theorem drw (x : RegIdx) (y : RegIdx) (n : Nibble) : Statement (.drw x y n) := fun _ => by
  simp only [OpcodeRow.matchesWord, encode, Instr.row, and_mask_op]; simp

theorem skp (x : RegIdx) : Statement (.skp x) := fun _ => by
  simp only [OpcodeRow.matchesWord, encode, Instr.row, and_mask_xss]; simp

theorem sknp (x : RegIdx) : Statement (.sknp x) := fun _ => by
  simp only [OpcodeRow.matchesWord, encode, Instr.row, and_mask_xss]; simp

theorem ldVxDt (x : RegIdx) : Statement (.ldVxDt x) := fun _ => by
  simp only [OpcodeRow.matchesWord, encode, Instr.row, and_mask_xss]; simp

theorem ldVxK (x : RegIdx) : Statement (.ldVxK x) := fun _ => by
  simp only [OpcodeRow.matchesWord, encode, Instr.row, and_mask_xss]; simp

theorem ldDtVx (x : RegIdx) : Statement (.ldDtVx x) := fun _ => by
  simp only [OpcodeRow.matchesWord, encode, Instr.row, and_mask_xss]; simp

theorem ldStVx (x : RegIdx) : Statement (.ldStVx x) := fun _ => by
  simp only [OpcodeRow.matchesWord, encode, Instr.row, and_mask_xss]; simp

theorem addI (x : RegIdx) : Statement (.addI x) := fun _ => by
  simp only [OpcodeRow.matchesWord, encode, Instr.row, and_mask_xss]; simp

theorem ldF (x : RegIdx) : Statement (.ldF x) := fun _ => by
  simp only [OpcodeRow.matchesWord, encode, Instr.row, and_mask_xss]; simp

theorem ldB (x : RegIdx) : Statement (.ldB x) := fun _ => by
  simp only [OpcodeRow.matchesWord, encode, Instr.row, and_mask_xss]; simp

theorem ldMemVx (x : RegIdx) : Statement (.ldMemVx x) := fun _ => by
  simp only [OpcodeRow.matchesWord, encode, Instr.row, and_mask_xss]; simp

theorem ldVxMem (x : RegIdx) : Statement (.ldVxMem x) := fun _ => by
  simp only [OpcodeRow.matchesWord, encode, Instr.row, and_mask_xss]; simp

end Sys2Proof.Laws.EncodedRow
end

