-- ==== Sys2Proof/Laws/Step.lean ====
section
/-! SUPPORT. What a next state tells: one inversion lemma for each meaning that can stop or has two
outcomes, for the poll, for the fetch and for the step (40_step_cycle.md R110 to R120). Every other
meaning answers the state its definition writes down, by rfl. -/

namespace Sys2Proof.Machine

/-! ## The meanings -/

theorem execRet_next {s t : State} (h : execRet s = .next t) :
    s.stack = t.pc :: t.stack ∧ t = { s with pc := t.pc, stack := t.stack } := by
  obtain ⟨r, hr, hk⟩ := onOk_eq_next h
  obtain ⟨h1, h2⟩ := pop_eq_ok hr
  cases hk
  exact ⟨h1, by rw [h2]; rfl⟩

theorem execCall_next {nnn : Addr} {s t : State} (h : execCall nnn s = .next t) :
    s.stack.length < Config.stackDepth ∧
      t = { s with pc := addrOperand nnn, stack := s.pc :: s.stack } := by
  obtain ⟨r, hr, hk⟩ := onOk_eq_next h
  obtain ⟨h1, rfl⟩ := push_eq_ok hr
  cases hk
  exact ⟨h1, rfl⟩

/-- The bytes n accesses from I upward reach. -/
def bytesAtI (s : State) (n : Nat) : List Byte :=
  (List.range' s.i.toNat n).map fun k => s.mem.read (effAddr s.params.oob k)

@[simp] theorem bytesAtI_length (s : State) (n : Nat) : (bytesAtI s n).length = n := by
  simp [bytesAtI]

theorem bytesAtI_getElem (s : State) (n k : Nat) (hk : k < (bytesAtI s n).length) :
    (bytesAtI s n)[k] = s.mem.read (effAddr s.params.oob (s.i.toNat + k)) := by
  simp [bytesAtI]

theorem readBytes_base_next {s t : State} {n : Nat} {k : List Byte → Result}
    (h : onOk (readBytes s s.base n) k = .next t) :
    InBounds s.params.oob s.i.toNat n ∧ k (bytesAtI s n) = .next t := by
  by_cases hb : InBounds s.params.oob s.i.toNat n
  · rw [State.base, readBytes_of_inBounds _ _ _ hb] at h
    exact ⟨hb, h⟩
  · rw [State.base, readBytes_of_not_inBounds _ _ _ hb] at h; cases h

theorem writeBytes_base_next {s t : State} {bs : List Byte}
    (h : onOk (writeBytes s s.base bs) (fun u => .next u) = .next t) :
    InBounds s.params.oob s.i.toNat bs.length ∧ t = { s with mem := storedMem s s.i.toNat bs } := by
  by_cases hb : InBounds s.params.oob s.i.toNat bs.length
  · rw [State.base, writeBytes_of_inBounds _ _ _ hb] at h
    cases h
    exact ⟨hb, rfl⟩
  · rw [State.base, writeBytes_of_not_inBounds _ _ _ hb] at h; cases h

theorem execLdB_next {x : RegIdx} {s t : State} (h : execLdB x s = .next t) :
    InBounds s.params.oob s.i.toNat 3 ∧
      t = { s with mem := storedMem s s.i.toNat (bcdDigits (s.reg x)) } := writeBytes_base_next h

theorem execLdMemVx_next {x : RegIdx} {s t : State} (h : execLdMemVx x s = .next t) :
    InBounds s.params.oob s.i.toNat (x.toNat + 1) ∧
      t = { s with mem := storedMem s s.i.toNat (s.regsUpTo x) } := by
  rw [← State.regsUpTo_length s x]
  exact writeBytes_base_next h

theorem execLdVxMem_next {x : RegIdx} {s t : State} (h : execLdVxMem x s = .next t) :
    InBounds s.params.oob s.i.toNat (x.toNat + 1) ∧
      t = s.setRegsFromV0 (bytesAtI s (x.toNat + 1)) := by
  obtain ⟨hb, hk⟩ := readBytes_base_next h
  cases hk
  exact ⟨hb, rfl⟩

theorem execDrw_next {x y : RegIdx} {n : Nibble} {s t : State} (h : execDrw x y n s = .next t) :
    InBounds s.params.oob s.i.toNat n.toNat ∧
      t = (s.setScreen (drawSprite s.fb (s.reg x).toNat (s.reg y).toNat (bytesAtI s n.toNat)).1).setReg
        vf (flagByte (drawSprite s.fb (s.reg x).toNat (s.reg y).toNat (bytesAtI s n.toNat)).2) := by
  obtain ⟨hb, hk⟩ := readBytes_base_next h
  cases hk
  exact ⟨hb, rfl⟩

theorem execLdVxK_next {x : RegIdx} {s t : State} (h : execLdVxK x s = .next t) :
    (∃ k, s.firstEdge = some k ∧ t = s.setReg x (keyByte k)) ∨
      (s.firstEdge = none ∧ t = (s.setMode (.awaitingKey x)).setPc s.instrAddr) := by
  simp only [execLdVxK] at h
  split at h
  · rename_i k hk; cases h; exact .inl ⟨k, hk, rfl⟩
  · rename_i hk; cases h; exact .inr ⟨hk, rfl⟩

theorem execRnd_next {x : RegIdx} {nn : Byte} {s t : State} (h : execRnd x nn s = .next t) :
    ∃ p d, t = ({ s with rngPending := p, rngDrawn := d } : State).setReg x ((draw8 s).1 &&& nn) := by
  cases h
  exact ⟨_, _, by rw [draw8_state s]⟩

/-! ## The cycle -/

/-- The poll changes registers, pc and mode alone (R118). -/
theorem pollKey_frame (x : RegIdx) (s : State) :
    ∃ v p m, pollKey x s = { s with v := v, pc := p, mode := m } := by
  unfold pollKey; split <;> exact ⟨_, _, _, rfl⟩

theorem fetch_of_resolve (s : State) {a b : Nat} (h1 : resolve s.params.oob s.pc.toNat = .ok a)
    (h2 : resolve s.params.oob (s.pc.toNat + 1) = .ok b) :
    fetch s = .ok (wordOfBytes (s.mem.read a) (s.mem.read b)) := by
  simp [fetch, memRead, h1, h2]

/-- The one error of a fetch (R111). -/
theorem fetch_eq_error {s : State} {e : Fault} (h : fetch s = .error e) :
    ∃ a, e = .memoryOutOfBounds a ∧ Config.memSize ≤ a ∧ s.params.oob = .fault := by
  unfold fetch at h
  split at h
  · rename_i e' he; cases h; exact ⟨_, memRead_eq_error he⟩
  · split at h
    · rename_i e' he; cases h; exact ⟨_, memRead_eq_error he⟩
    · cases h

/-- A fetched word that decodes is executed, then the commit. -/
theorem step_of_fetch {s : State} {w : Word} {i : Instr} (hm : s.mode = .running)
    (hf : fetch s = .ok w) (hd : decodeWord s.params.sys w = .op i) :
    step s = commit (exec i s.advance) := by
  simp [step, hm, hf, hd]

/-- All that a next state of the step can be. -/
theorem step_next {s t : State} (h : step s = .next t) :
    (∃ x, s.mode = .awaitingKey x ∧ t = (pollKey x s).commitKeys) ∨
    (∃ w i u, s.mode = .running ∧ fetch s = .ok w ∧ decodeWord s.params.sys w = .op i ∧
      exec i s.advance = .next u ∧ t = u.commitKeys) := by
  unfold step at h
  split at h
  · rename_i x hm; cases h; exact .inl ⟨x, hm, rfl⟩
  · rename_i hm
    split at h
    · cases h
    · rename_i w hf
      split at h
      · cases h
      · rename_i i hd
        cases he : exec i s.advance with
        | next u => rw [he] at h; cases h; exact .inr ⟨w, i, u, hm, hf, hd, he, rfl⟩
        | fault e => rw [he] at h; cases h
        | refused q => rw [he] at h; cases h

end Sys2Proof.Machine
end

