-- ==== Sys2Proof/Tests/Slice0.lean ====
section
/-! SUPPORT. The model's own tests: ill-formed terms, decodings written out from the spec's encodings,
one or two vectors of spec/95_test_vectors.md for each instruction, and a state that meets the hypotheses
of every obligation that has some. -/

namespace Sys2Proof.Machine.Tests

/-! ## Helpers -/

def nextOf : Result → Option State
  | .next t => some t
  | .fault _ => none
  | .refused _ => none

def faultOf : Result → Option Fault
  | .next _ => none
  | .fault e => some e
  | .refused _ => none

theorem next_of_isSome {r : Result} (h : (nextOf r).isSome = true) : ∃ t, r = .next t := by
  cases r with
  | next t => exact ⟨t, rfl⟩
  | fault e => cases h
  | refused q => cases h

/-- The reset state with some registers, and I. -/
def start (vs : List (RegIdx × Byte)) (i : Word) : State :=
  { vs.foldl (fun s p => s.setReg p.1 p.2) State.reset with i := i }

/-- With some bytes from an address upward. -/
def withBytes (a : Nat) (bs : List Byte) (s : State) : State :=
  { s with mem := s.mem.writeAll ((List.range' a bs.length).zip bs) }

/-- One step on a word placed at pc. -/
def run (w : Nat) (s : State) : Option State := nextOf (step (s.withFetchWord 16 w))

/-- The error of one step on a word placed at pc. -/
def err (w : Nat) (s : State) : Option Fault := faultOf (step (s.withFetchWord 16 w))

/-- V[x] and VF after. -/
def regAndFlag (x : RegIdx) (r : Option State) : Option (Byte × Byte) := r.map fun t => (t.reg x, t.reg vf)

/-- n bytes from an address upward. -/
def bytesFrom (a n : Nat) (r : Option State) : Option (List Byte) :=
  r.map fun t => (List.range' a n).map t.mem.read

/-- The pixels that are on, row after row, among some columns and rows. -/
def onAmong (xs ys : List Nat) (r : Option State) : Option (List (Nat × Nat)) :=
  r.map fun t => ys.flatMap fun y => (xs.filter fun x => pixel t.fb x y).map fun x => (x, y)

/-- A key held: pressed now and at the last commit. -/
def held (k : KeyIdx) (s : State) : State := (s.pressKey k true).commitKeys

/-! ## WellFormed -/

theorem test_wf_refuses_sys_of_cls_word : Instr.wellFormed (.sys 0x0E0#12) = false := by decide
theorem test_wf_refuses_sys_of_ret_word : Instr.wellFormed (.sys 0x0EE#12) = false := by decide
theorem test_wf_takes_other_sys : Instr.wellFormed (.sys 0x0E1#12) = true := by decide

/-! ## Decoding: each word written out from its encoding in 30_encoding.md sections 2 and 3 -/

theorem test_decode_sys :
    decodeWord .nop (0b0000#4 ++ 0b0001#4 ++ 0b0010#4 ++ 0b0011#4) = .op (.sys 0x123#12) := by decide
theorem test_decode_cls :
    decodeWord .nop (0b0000#4 ++ 0b0000#4 ++ 0b1110#4 ++ 0b0000#4) = .op (.cls) := by decide
theorem test_decode_ret :
    decodeWord .nop (0b0000#4 ++ 0b0000#4 ++ 0b1110#4 ++ 0b1110#4) = .op (.ret) := by decide
theorem test_decode_jp :
    decodeWord .nop (0b0001#4 ++ 0b0010#4 ++ 0b0010#4 ++ 0b1000#4) = .op (.jp 0x228#12) := by decide
theorem test_decode_call :
    decodeWord .nop (0b0010#4 ++ 0b1010#4 ++ 0b1011#4 ++ 0b1100#4) = .op (.call 0xABC#12) := by decide
theorem test_decode_se_imm :
    decodeWord .nop (0b0011#4 ++ 0b0011#4 ++ 0b0001#4 ++ 0b0000#4) = .op (.seImm 3#4 0x10#8) := by decide
theorem test_decode_sne_imm :
    decodeWord .nop (0b0100#4 ++ 0b0011#4 ++ 0b1111#4 ++ 0b0001#4) = .op (.sneImm 3#4 0xF1#8) := by decide
theorem test_decode_se_reg :
    decodeWord .nop (0b0101#4 ++ 0b0001#4 ++ 0b0010#4 ++ 0b0000#4) = .op (.seReg 1#4 2#4) := by decide
theorem test_decode_ld_imm :
    decodeWord .nop (0b0110#4 ++ 0b1010#4 ++ 0b0010#4 ++ 0b1111#4) = .op (.ldImm 10#4 0x2F#8) := by decide
theorem test_decode_add_imm :
    decodeWord .nop (0b0111#4 ++ 0b0001#4 ++ 0b1000#4 ++ 0b0011#4) = .op (.addImm 1#4 0x83#8) := by decide
theorem test_decode_ld_reg :
    decodeWord .nop (0b1000#4 ++ 0b0001#4 ++ 0b0010#4 ++ 0b0000#4) = .op (.ldReg 1#4 2#4) := by decide
theorem test_decode_or :
    decodeWord .nop (0b1000#4 ++ 0b0001#4 ++ 0b0010#4 ++ 0b0001#4) = .op (.orReg 1#4 2#4) := by decide
theorem test_decode_and :
    decodeWord .nop (0b1000#4 ++ 0b0001#4 ++ 0b0010#4 ++ 0b0010#4) = .op (.andReg 1#4 2#4) := by decide
theorem test_decode_xor :
    decodeWord .nop (0b1000#4 ++ 0b0001#4 ++ 0b0010#4 ++ 0b0011#4) = .op (.xorReg 1#4 2#4) := by decide
theorem test_decode_add_reg :
    decodeWord .nop (0b1000#4 ++ 0b0001#4 ++ 0b0010#4 ++ 0b0100#4) = .op (.addReg 1#4 2#4) := by decide
theorem test_decode_sub :
    decodeWord .nop (0b1000#4 ++ 0b0001#4 ++ 0b0010#4 ++ 0b0101#4) = .op (.subReg 1#4 2#4) := by decide
theorem test_decode_shr :
    decodeWord .nop (0b1000#4 ++ 0b0001#4 ++ 0b0010#4 ++ 0b0110#4) = .op (.shr 1#4 2#4) := by decide
theorem test_decode_subn :
    decodeWord .nop (0b1000#4 ++ 0b0001#4 ++ 0b0010#4 ++ 0b0111#4) = .op (.subnReg 1#4 2#4) := by decide
theorem test_decode_shl :
    decodeWord .nop (0b1000#4 ++ 0b0001#4 ++ 0b0010#4 ++ 0b1110#4) = .op (.shl 1#4 2#4) := by decide
theorem test_decode_sne_reg :
    decodeWord .nop (0b1001#4 ++ 0b0001#4 ++ 0b0010#4 ++ 0b0000#4) = .op (.sneReg 1#4 2#4) := by decide
theorem test_decode_ld_i :
    decodeWord .nop (0b1010#4 ++ 0b0010#4 ++ 0b0010#4 ++ 0b1010#4) = .op (.ldI 0x22A#12) := by decide
theorem test_decode_jp_v0 :
    decodeWord .nop (0b1011#4 ++ 0b0011#4 ++ 0b0000#4 ++ 0b0000#4) = .op (.jpV0 0x300#12) := by decide
theorem test_decode_rnd :
    decodeWord .nop (0b1100#4 ++ 0b0011#4 ++ 0b0000#4 ++ 0b1111#4) = .op (.rnd 3#4 0x0F#8) := by decide
theorem test_decode_drw :
    decodeWord .nop (0b1101#4 ++ 0b0001#4 ++ 0b0010#4 ++ 0b0101#4) = .op (.drw 1#4 2#4 5#4) := by decide
theorem test_decode_skp :
    decodeWord .nop (0b1110#4 ++ 0b0101#4 ++ 0b1001#4 ++ 0b1110#4) = .op (.skp 5#4) := by decide
theorem test_decode_sknp :
    decodeWord .nop (0b1110#4 ++ 0b0101#4 ++ 0b1010#4 ++ 0b0001#4) = .op (.sknp 5#4) := by decide
theorem test_decode_ld_vx_dt :
    decodeWord .nop (0b1111#4 ++ 0b0110#4 ++ 0b0000#4 ++ 0b0111#4) = .op (.ldVxDt 6#4) := by decide
theorem test_decode_ld_vx_k :
    decodeWord .nop (0b1111#4 ++ 0b0011#4 ++ 0b0000#4 ++ 0b1010#4) = .op (.ldVxK 3#4) := by decide
theorem test_decode_ld_dt_vx :
    decodeWord .nop (0b1111#4 ++ 0b0110#4 ++ 0b0001#4 ++ 0b0101#4) = .op (.ldDtVx 6#4) := by decide
theorem test_decode_ld_st_vx :
    decodeWord .nop (0b1111#4 ++ 0b0110#4 ++ 0b0001#4 ++ 0b1000#4) = .op (.ldStVx 6#4) := by decide
theorem test_decode_add_i :
    decodeWord .nop (0b1111#4 ++ 0b0010#4 ++ 0b0001#4 ++ 0b1110#4) = .op (.addI 2#4) := by decide
theorem test_decode_ld_f :
    decodeWord .nop (0b1111#4 ++ 0b1010#4 ++ 0b0010#4 ++ 0b1001#4) = .op (.ldF 10#4) := by decide
theorem test_decode_ld_b :
    decodeWord .nop (0b1111#4 ++ 0b1110#4 ++ 0b0011#4 ++ 0b0011#4) = .op (.ldB 14#4) := by decide
theorem test_decode_ld_mem_vx :
    decodeWord .nop (0b1111#4 ++ 0b0010#4 ++ 0b0101#4 ++ 0b0101#4) = .op (.ldMemVx 2#4) := by decide
theorem test_decode_ld_vx_mem :
    decodeWord .nop (0b1111#4 ++ 0b0010#4 ++ 0b0110#4 ++ 0b0101#4) = .op (.ldVxMem 2#4) := by decide
theorem test_decode_unknown : decodeWord .nop 0x5121#16 = .unknown 0x5121#16 := by decide
theorem test_decode_table_word : decodeTableWord 16 0xD125 = some (.drw 1#4 2#4 5#4) := by decide
theorem test_decode_table_word_unknown : decodeTableWord 16 0x8128 = none := by decide
theorem test_fixed_words_are_in_one_row :
    ([0x00E0#16, 0x00EE#16, 0x0123#16].map fun w => (opcodeRows.filter (·.matchesWord w)).length) = [1, 1, 1] := by
  decide
theorem test_decode_bytes_truncated : decodeBytes .nop [0x12#8] = .error (.truncated 1) := by rfl

/-! ## Vectors of 95_test_vectors.md, by their ids -/

theorem test_CF_1_sys :
    (run 0x0123 State.reset).map (·.pc) = some 0x202#16 := by
  decide
theorem test_CF_2_sys_unknown :
    err 0x0123 { State.reset with params := { Params.default with sys := .unknown } } =
      some (.decodeUnknown 0x0123#16) := by
  decide
theorem test_CF_4_ret :
    (run 0x00EE { State.reset with pc := 0x300#16, stack := [0x204#16] }).map (fun t => (t.pc, t.stack)) =
      some (0x204#16, []) := by
  decide
theorem test_CF_5_ret_empty :
    err 0x00EE { State.reset with pc := 0x300#16 } = some .stackUnderflow := by
  decide
theorem test_CF_6_jp :
    (run 0x1228 State.reset).map (·.pc) = some 0x228#16 := by
  decide
theorem test_CF_8_jp_odd :
    (run 0x1203 State.reset).map (·.pc) = some 0x203#16 := by
  decide
theorem test_CF_12_call_from_the_end :
    (run 0x2300 { State.reset with pc := 0xFFE#16 }).map (fun t => (t.pc, t.stack)) =
      some (0x300#16, [0x1000#16]) := by
  decide
theorem test_CF_11_call_at_depth_16 :
    err 0x2300 { State.reset with stack := List.replicate 16 0x202#16 } = some .stackOverflow := by
  decide
theorem test_CF_13_se_equal :
    (run 0x3310 (start [(3, 0x10)] 0)).map (·.pc) = some 0x204#16 := by
  decide
theorem test_CF_14_se_differ :
    (run 0x3310 (start [(3, 0x11)] 0)).map (·.pc) = some 0x202#16 := by
  decide
theorem test_CF_15_sne_differ :
    (run 0x4310 (start [(3, 0x11)] 0)).map (·.pc) = some 0x204#16 := by
  decide
theorem test_CF_16_sne_equal :
    (run 0x4310 (start [(3, 0x10)] 0)).map (·.pc) = some 0x202#16 := by
  decide
theorem test_CF_17_se_reg :
    (run 0x5120 (start [(1, 0x7F), (2, 0x7F)] 0)).map (·.pc) = some 0x204#16 := by
  decide
theorem test_CF_20_sne_reg_differ :
    (run 0x9120 (start [(1, 1), (2, 2)] 0)).map (·.pc) = some 0x204#16 := by
  decide
theorem test_CF_21_sne_reg_same :
    (run 0x9110 (start [(1, 0x33)] 0)).map (·.pc) = some 0x202#16 := by
  decide
theorem test_CF_25_jp_v0_largest :
    (run 0xBFFF (start [(0, 0xFF)] 0)).map (·.pc) = some 0x10FE#16 := by
  decide
theorem test_CF_24_jp_vx :
    (run 0xB300 { start [(0, 4), (3, 0x10)] 0 with params := { Params.default with jump := .vx } }).map
      (·.pc) = some 0x310#16 := by
  decide
theorem test_AL_2_ld_vf :
    (run 0x6F2F State.reset).map (·.reg 15) = some 0x2F#8 := by
  decide
theorem test_AL_4_add_imm_wraps :
    regAndFlag 1 (run 0x7101 (start [(1, 0xFF), (15, 0x55)] 0)) = some (0x00#8, 0x55#8) := by
  decide
theorem test_AL_6_ld_reg :
    (run 0x8120 (start [(2, 0x42)] 0)).map (·.reg 1) = some 0x42#8 := by
  decide
theorem test_AL_7_or :
    regAndFlag 1 (run 0x8121 (start [(1, 0x0C), (2, 0x0A), (15, 0x77)] 0)) = some (0x0E#8, 0x77#8) := by
  decide
theorem test_AL_8_and :
    regAndFlag 1 (run 0x8122 (start [(1, 0x0C), (2, 0x0A), (15, 0x77)] 0)) = some (0x08#8, 0x77#8) := by
  decide
theorem test_AL_9_xor :
    regAndFlag 1 (run 0x8123 (start [(1, 0x0C), (2, 0x0A), (15, 0x77)] 0)) = some (0x06#8, 0x77#8) := by
  decide
theorem test_AL_12_add_carry :
    regAndFlag 1 (run 0x8124 (start [(1, 0xFF), (2, 0x01)] 0)) = some (0x00#8, 0x01#8) := by
  decide
theorem test_AL_15_add_y_is_f :
    regAndFlag 1 (run 0x81F4 (start [(1, 0x10), (15, 0x01)] 0)) = some (0x11#8, 0x00#8) := by
  decide
theorem test_AL_18_sub_equal :
    regAndFlag 1 (run 0x8125 (start [(1, 0x42), (2, 0x42)] 0)) = some (0x00#8, 0x01#8) := by
  decide
theorem test_AL_19_sub_x_is_f :
    (run 0x8F15 (start [(1, 0x01)] 0)).map (·.reg 15) = some 0x00#8 := by
  decide
theorem test_AL_21_shr_ignores_y :
    regAndFlag 1 (run 0x8126 (start [(1, 0x04), (2, 0xFF)] 0)) = some (0x02#8, 0x00#8) := by
  decide
theorem test_AL_22_shr_x_is_f :
    (run 0x8F06 (start [(15, 0x03)] 0)).map (·.reg 15) = some 0x01#8 := by
  decide
theorem test_AL_23_subn :
    regAndFlag 1 (run 0x8127 (start [(1, 0x05), (2, 0x07)] 0)) = some (0x02#8, 0x01#8) := by
  decide
theorem test_AL_24_subn_borrow :
    regAndFlag 1 (run 0x8127 (start [(1, 0x07), (2, 0x05)] 0)) = some (0xFE#8, 0x00#8) := by
  decide
theorem test_AL_26_shl_high_bit :
    regAndFlag 1 (run 0x810E (start [(1, 0x81)] 0)) = some (0x02#8, 0x01#8) := by
  decide
theorem test_AL_27_shl_ignores_y :
    regAndFlag 1 (run 0x812E (start [(1, 0x40), (2, 0xFF)] 0)) = some (0x80#8, 0x00#8) := by
  decide
theorem test_IM_1_ld_i :
    (run 0xA22A State.reset).map (·.i) = some 0x022A#16 := by
  decide
theorem test_IM_3_add_i_past_memory :
    (run 0xF21E (start [(2, 0x01)] 0x0FFF)).map (fun t => (t.i, t.reg 15)) = some (0x1000#16, 0x00#8) := by
  decide
theorem test_IM_4_add_i_wraps :
    (run 0xF21E (start [(2, 0x02)] 0xFFFF)).map (·.i) = some 0x0001#16 := by
  decide
theorem test_IM_7_ld_f_low_nibble :
    (run 0xFA29 (start [(10, 0x1B)] 0)).map (·.i) = some 0x087#16 := by
  decide
theorem test_IM_11_bcd_over_the_end :
    err 0xFE33 (start [(14, 0x80)] 0xFFE) = some (.memoryOutOfBounds 0x1000) := by
  decide
theorem test_IM_12_bcd_wraps :
    bytesFrom 0xFFE 2 (run 0xFE33 { start [(14, 0x80)] 0xFFE with params := { Params.default with oob := .wrap } }) =
        some [0x01#8, 0x02#8] ∧
      bytesFrom 0x000 1 (run 0xFE33 { start [(14, 0x80)] 0xFFE with params := { Params.default with oob := .wrap } }) =
        some [0x08#8] := by
  decide
theorem test_IM_13_store :
    bytesFrom 0x400 4 (run 0xF255 (start [(0, 0x11), (1, 0x22), (2, 0x33), (3, 0x44)] 0x400)) =
      some [0x11#8, 0x22#8, 0x33#8, 0x00#8] := by
  decide
theorem test_IM_15_store_over_the_end :
    err 0xF155 (start [(0, 0x01), (1, 0x02)] 0xFFF) = some (.memoryOutOfBounds 0x1000) := by
  decide
theorem test_IM_16_load :
    (run 0xF265 (withBytes 0x400 [0x11, 0x22, 0x33, 0x44] (start [(3, 0x99)] 0x400))).map
      (fun t => [t.reg 0, t.reg 1, t.reg 2, t.reg 3]) = some [0x11#8, 0x22#8, 0x33#8, 0x99#8] := by
  decide
theorem test_IM_18_load_over_the_end :
    err 0xF365 (start [] 0xFFE) = some (.memoryOutOfBounds 0x1000) := by
  decide
theorem test_DI_1_cls :
    onAmong [0, 63] [0, 31] (run 0x00E0 { State.reset with fb := xorPixels blankScreen [(0, 0), (63, 31)] }) = some [] := by
  decide
theorem test_DI_5_right_clip :
    onAmong [0, 1, 2, 3, 59, 60, 61, 62, 63] [0, 1]
      (run 0xD011 (withBytes 0x300 [0xFF] (start [(0, 60)] 0x300))) = some [(60, 0), (61, 0), (62, 0), (63, 0)] := by
  decide
theorem test_DI_12_collision :
    (run 0xD011 { withBytes 0x300 [0xC0] (start [] 0x300) with fb := xorPixels blankScreen [(1, 0)] }).map
      (fun t => (pixel t.fb 0 0, pixel t.fb 1 0, t.reg 15)) = some (true, false, 0x01#8) := by
  decide
theorem test_RI_1_rnd :
    (run 0xC30F { State.reset with rngPending := [0xA7#8] }).map (fun t => (t.reg 3, t.rngPending)) =
      some (0x07#8, []) := by
  decide
theorem test_RI_6_skp_low_nibble :
    (run 0xE59E (held 10 (start [(5, 0x1A)] 0))).map (·.pc) = some 0x204#16 := by
  decide
theorem test_RI_5_skp_not_pressed :
    (run 0xE59E (start [(5, 0x0A)] 0)).map (·.pc) = some 0x202#16 := by
  decide
theorem test_RI_7_sknp_not_pressed :
    (run 0xE5A1 (start [(5, 0x0A)] 0)).map (·.pc) = some 0x204#16 := by
  decide
theorem test_RI_8_sknp_pressed :
    (run 0xE5A1 (held 10 (start [(5, 0x0A)] 0))).map (·.pc) = some 0x202#16 := by
  decide
theorem test_RI_11_key_held_is_no_edge :
    (run 0xF30A (held 4 State.reset)).map (fun t => (t.mode, t.pc)) =
      some (.awaitingKey 3, 0x200#16) := by
  decide
theorem test_RI_12_lowest_new_key :
    (run 0xF30A ((State.reset.pressKey 9 true).pressKey 4 true)).map
      (fun t => (t.reg 3, t.pc, t.keyPrev 9)) = some (0x04#8, 0x202#16, true) := by
  decide
theorem test_RI_13_ld_vx_dt :
    (run 0xF607 { State.reset with dt := 0x3C#8 }).map (·.reg 6) = some 0x3C#8 := by
  decide
theorem test_RI_14_ld_dt_vx :
    (run 0xF615 (start [(6, 0x05)] 0)).map (fun t => (t.dt, t.st)) = some (0x05#8, 0x00#8) := by
  decide
theorem test_RI_15_ld_st_vx :
    (run 0xF618 (start [(6, 0x02)] 0)).map (fun t => (t.st, t.soundActive)) = some (0x02#8, true) := by
  decide
theorem test_SC_3_fetch_wraps :
    (nextOf (step { withBytes 0xFFF [0x60] (withBytes 0 [0x2A] State.reset) with
      pc := 0xFFF#16, params := { Params.default with oob := .wrap } })).map (fun t => (t.reg 0, t.pc)) =
      some (0x2A#8, 0x1001#16) := by
  decide
theorem test_SC_1_fetch_straddles :
    faultOf (step { State.reset with pc := 0xFFF#16 }) = some (.memoryOutOfBounds 0x1000) := by
  decide
theorem test_L1_6_poll :
    (nextOf (step ({ State.reset with mode := .awaitingKey 3 } : State))).map (fun t => (t.mode, t.pc)) =
      some (.awaitingKey 3, 0x200#16) := by
  decide
theorem test_L1_6_poll_takes_key :
    (nextOf (step (State.pressKey { State.reset with mode := .awaitingKey 3 } 7 true))).map
      (fun t => (t.reg 3, t.pc, t.mode)) = some (0x07#8, 0x202#16, .running) := by
  decide

/-! ## Witnesses: what meets the hypotheses of each obligation, clause by clause, at boundary values -/

/-- A state about to run 0xF255 at the last address a word can be fetched from. -/
def lastWord : State := { start [(0, 0x11), (1, 0x22)] 0x400 with pc := 0xFFE#16 }.withFetchWord 16 0xF155

/-- RET on an empty stack, about to run. -/
def retEmpty : State := State.reset.withFetchWord 16 0x00EE

/-- OOB_POLICY = wrap. -/
def wrapped (s : State) : State := { s with params := { s.params with oob := .wrap } }

/-- Key 15 new, and key 9 held. -/
def newKey : State := (held 9 State.reset).pressKey 15 true

/-- Some sixteen entries. -/
def deep (n : Nat) : List Word := List.replicate n 0x202#16
theorem witness_MemoryAfterConstruction :
    (79 : Nat) < 80 ∧ ((0x04F : Nat) < 0x050 ∨ 0x0A0 ≤ 0x04F) ∧ ((0x0A0 : Nat) < 0x050 ∨ 0x0A0 ≤ 0x0A0) :=
  by decide
theorem witness_StepKeepsInvariant :
    lastWord.Inv ∧ ∃ t, step lastWord = .next t :=
  ⟨by decide, next_of_isSome (by decide)⟩
theorem witness_StepKeepsInvariant_deepest :
    { State.reset with stack := deep 16 }.Inv ∧ ∃ t, step { State.reset with stack := deep 16 } = .next t :=
  ⟨by decide, next_of_isSome (by decide)⟩
theorem witness_HostRunKeepsInvariant :
    State.reset.Inv ∧ ∃ t rs, hostRun [.load [0x12#8, 0x00#8], .setKey 15 true, .step, .tickTimers] State.reset = .ok (t, rs) :=
  ⟨by decide, _, _, rfl⟩
theorem witness_DecodeEncodeRoundTrip :
    Instr.wellFormed (.sys 0x0E1#12) = true ∧ (SysPolicy.nop = .unknown → ∀ nnn, Instr.sys 0x0E1#12 ≠ .sys nnn) :=
  ⟨rfl, nofun⟩
theorem witness_DecodeEncodeRoundTrip_unknown :
    Instr.wellFormed .ret = true ∧ (SysPolicy.unknown = .unknown → ∀ nnn, Instr.ret ≠ .sys nnn) :=
  ⟨rfl, fun _ _ => nofun⟩
theorem witness_EncodeDecodeRoundTrip :
    decodeWord .unknown 0xFF65#16 = .op (.ldVxMem 15#4) ∧ decodeWord .unknown 0x0000#16 = .unknown 0x0000#16 :=
  by decide
theorem witness_DecoderMatchesOpcodeTable :
    decodeWord .nop 0x0000#16 = .op (.sys 0#12) ∧ decodeWord .nop 0x5121#16 = .unknown 0x5121#16 :=
  by decide
theorem witness_StepRunsTheDecodedInstruction :
    lastWord.mode = .running ∧
      resolve lastWord.params.oob lastWord.pc.toNat = .ok 0xFFE ∧
      resolve lastWord.params.oob (lastWord.pc.toNat + 1) = .ok 0xFFF ∧
      decodeWord lastWord.params.sys (lastWord.mem.read 0xFFE ++ lastWord.mem.read 0xFFF) = .op (.ldMemVx 1#4) :=
  ⟨rfl, rfl, rfl, by decide⟩
theorem witness_StepRunsTheDecodedInstruction_wrap :
    ∃ s : State, s.mode = .running ∧ resolve s.params.oob s.pc.toNat = .ok 0xFFF ∧
      resolve s.params.oob (s.pc.toNat + 1) = .ok 0x000 ∧
      decodeWord s.params.sys (s.mem.read 0xFFF ++ s.mem.read 0x000) = .op (.sys 0#12) :=
  ⟨wrapped { State.reset with pc := 0xFFF#16 }, rfl, rfl, rfl, by decide⟩
theorem witness_FetchReadsBigEndianWord :
    lastWord.pc.toNat < 4095 ∧ (wrapped lastWord).params.oob = .wrap ∧
      (∃ s : State, s.params.oob = .fault ∧ 4096 ≤ s.pc.toNat ∧ s.mode = .running) ∧
      (∃ s : State, s.params.oob = .fault ∧ s.pc.toNat = 4095 ∧ s.mode = .running) :=
  ⟨by decide, rfl, ⟨{ State.reset with pc := 0x1000#16 }, rfl, by decide, rfl⟩,
    ⟨{ State.reset with pc := 0xFFF#16 }, rfl, rfl, rfl⟩⟩
theorem witness_UnknownWordRaisesDecodeError :
    ∃ s : State, s.mode = .running ∧ fetch s = .ok 0xF608#16 ∧
      decodeWord s.params.sys 0xF608#16 = .unknown 0xF608#16 :=
  ⟨State.reset.withFetchWord 16 0xF608, rfl, rfl, by decide⟩
theorem witness_EncodedInstructionRunsNext :
    Instr.wellFormed (.drw 15#4 15#4 15#4) = true ∧
      (SysPolicy.unknown = .unknown → ∀ nnn, Instr.drw 15#4 15#4 15#4 ≠ .sys nnn) ∧
      InBounds State.reset.params.oob (0xFFE#16).toNat 2 ∧ ¬ InBounds State.reset.params.oob (0xFFF#16).toNat 2 ∧
      InBounds (wrapped State.reset).params.oob (0xFFF#16).toNat 2 :=
  ⟨rfl, fun _ _ => nofun, by decide, by decide, by decide⟩
theorem witness_AwaitingKeyPoll :
    ∃ s : State, s.mode = .awaitingKey 15#4 ∧ LeastEdge s 15#4 :=
  ⟨{ newKey with mode := .awaitingKey 15 }, rfl, by decide⟩
theorem witness_AwaitingKeyPoll_no_edge :
    ∃ s : State, s.mode = .awaitingKey 0#4 ∧ ∀ k, ¬ PressEdge s k :=
  ⟨{ held 9 State.reset with mode := .awaitingKey 0 }, rfl, by decide⟩
theorem witness_StepCommitsKeysAndKeepsInputs :
    ∃ t, step newKey = .next t :=
  next_of_isSome (by decide)
theorem witness_StepLeavesTimersToHost :
    ∃ t, step (State.reset.withFetchWord 16 0xF615) = .next t :=
  next_of_isSome (by decide)
theorem witness_StepErrorsAreTheTaxonomy :
    step retEmpty = .fault .stackUnderflow ∧
      step ({ State.reset with stack := deep 16 }.withFetchWord 16 0x2300) = .fault .stackOverflow ∧
      step (State.reset.withFetchWord 16 0x8128) = .fault (.decodeUnknown 0x8128#16) ∧
      step ({ State.reset with pc := 0xFFF#16 } : State) = .fault (.memoryOutOfBounds 4096) :=
  ⟨rfl, rfl, rfl, rfl⟩
theorem witness_ExecErrorKinds :
    exec (.call 0#12) { State.reset with stack := deep 16 } = .fault .stackOverflow ∧
      exec .ret State.reset = .fault .stackUnderflow ∧
      exec (.drw 0#4 0#4 2#4) (start [] 0xFFF) = .fault (.memoryOutOfBounds 0x1000) :=
  ⟨rfl, rfl, rfl⟩
theorem witness_ExecErrorKinds_memory :
    exec (.ldB 0#4) (start [] 0xFFE) = .fault (.memoryOutOfBounds 0x1000) ∧
      exec (.ldMemVx 0#4) (start [] 0x1000) = .fault (.memoryOutOfBounds 0x1000) ∧
      exec (.ldVxMem 15#4) (start [] 0xFFFF) = .fault (.memoryOutOfBounds 0xFFFF) :=
  ⟨rfl, rfl, rfl⟩
theorem witness_FailedStepChangesNothing :
    step retEmpty = .fault .stackUnderflow :=
  rfl
theorem witness_ZeroedMemoryRunsToTheEnd :
    (1792 : Nat) ≤ 1792 :=
  Nat.le_refl _
theorem witness_StoreIsSeenByNextFetch :
    ∃ s : State, (∃ t, exec (.ldMemVx 1#4) s = .next t) ∧ 1 ≤ (1#4).toNat ∧ s.i = s.pc :=
  ⟨{ start [(0, 0x12), (1, 0x08)] 0xFFE with pc := 0xFFE#16 }, next_of_isSome (by decide), by decide, rfl⟩
theorem witness_StoreIsSeenByNextFetch_wrap :
    ∃ s : State, (∃ t, exec (.ldMemVx 1#4) s = .next t) ∧ 1 ≤ (1#4).toNat ∧ s.i = s.pc :=
  ⟨wrapped { start [(0, 0x12), (1, 0x08)] 0xFFF with pc := 0xFFF#16 },
    next_of_isSome (by decide), by decide, rfl⟩
theorem witness_RegistersWrittenOnlyByName :
    (∃ t, exec (.addReg 1#4 2#4) State.reset = .next t) ∧ writesReg (.addReg 1#4 2#4) 2#4 = false ∧
      (∃ t, exec (.ldVxMem 14#4) State.reset = .next t) ∧ writesReg (.ldVxMem 14#4) 15#4 = false :=
  ⟨⟨_, rfl⟩, by decide, next_of_isSome (by decide), by decide⟩
theorem witness_StateWrittenOnlyByName :
    ∃ t, exec (.drw 0#4 0#4 15#4) (start [] 0xFF1) = .next t :=
  next_of_isSome (by decide)
theorem witness_ScreenIsReadOnlyByCollision :
    (∃ t, exec (.ldImm 0#4 1#8) State.reset = .next t) ∧ Instr.ldImm 0#4 1#8 ≠ .cls ∧
      ∀ x y n, Instr.ldImm 0#4 1#8 ≠ .drw x y n :=
  ⟨⟨_, rfl⟩, nofun, fun _ _ _ => nofun⟩
theorem witness_SysAdvancesOnly :
    Instr.wellFormed (.sys 0xFFF#12) = true ∧ Instr.wellFormed (.sys 0x000#12) = true :=
  by decide
theorem witness_RetPopsIntoPc :
    0 < ({ State.reset with stack := [0x204#16] } : State).sp ∧ retEmpty.sp = 0 ∧ retEmpty.mode = .running ∧
      fetch retEmpty = .ok 0x00EE#16 :=
  ⟨by decide, rfl, rfl, rfl⟩
theorem witness_CallPushesReturnAddress :
    ({ State.reset with stack := deep 15 } : State).sp < 16 ∧
      (∃ s : State, s.sp = 16 ∧ s.mode = .running ∧ fetch s = .ok 0x2300#16) :=
  ⟨by decide, { State.reset with stack := deep 16 }.withFetchWord 16 0x2300, rfl, rfl, rfl⟩
theorem witness_PushAndPop :
    ({ State.reset with stack := deep 16 } : State).sp = 16 ∧ ({ State.reset with stack := deep 15 } : State).sp < 16 ∧
      State.reset.sp = 0 ∧ 0 < ({ State.reset with stack := deep 1 } : State).sp ∧
      ∃ t, push { State.reset with stack := deep 15 } 0x202#16 = .ok t :=
  ⟨rfl, by decide, rfl, by decide, _, rfl⟩
theorem witness_DirtyAndSoundTransactions :
    0 < ({ State.reset with st := 1#8 } : State).st.toNat ∧ State.reset.st.toNat = 0 :=
  by decide
theorem witness_RetUndoesCall :
    ∃ s t u : State, exec (.call 0x300#12) s = .next t ∧ u.stack = t.stack ∧ u ≠ t :=
  ⟨{ State.reset with stack := deep 15 }, _,
    { State.reset with stack := State.reset.pc :: deep 15, dt := 1#8 }, rfl, rfl,
    fun h => absurd (congrArg State.dt h) (by decide)⟩
theorem witness_SkipsOnRegisters :
    (1#4 : Nibble) ≠ 0x0#4 ∧ (15#4 : Nibble) ≠ 0x0#4 :=
  by decide
theorem witness_JumpWithOffset :
    State.reset.params.jump = .v0 ∧
      ({ State.reset with params := { Params.default with jump := .vx } } : State).params.jump = .vx :=
  ⟨rfl, rfl⟩
theorem witness_RegisterNotFlag :
    (14#4 : RegIdx) ≠ 15#4 ∧ (0#4 : RegIdx) ≠ 15#4 :=
  by decide
theorem witness_BcdStoresDecimalDigits :
    InBounds State.reset.params.oob (start [] 0xFFD).i.toNat 3 ∧
      ¬ InBounds State.reset.params.oob (start [] 0xFFE).i.toNat 3 ∧
      InBounds (wrapped State.reset).params.oob (start [] 0xFFFF).i.toNat 3 :=
  by decide
theorem witness_BlockStore :
    InBounds (start [] 0xFF0).params.oob (start [] 0xFF0).i.toNat ((15#4).toNat + 1) ∧
      ∃ s : State, ¬ InBounds s.params.oob s.i.toNat ((15#4).toNat + 1) ∧ s.mode = .running ∧ fetch s = .ok 0xFF55#16 :=
  ⟨by decide, (start [] 0xFF1).withFetchWord 16 0xFF55, by decide, rfl, rfl⟩
theorem witness_BlockLoad :
    InBounds (start [] 0xFFF).params.oob (start [] 0xFFF).i.toNat ((0#4).toNat + 1) ∧
      ∃ s : State, ¬ InBounds s.params.oob s.i.toNat ((0#4).toNat + 1) ∧ s.mode = .running ∧ fetch s = .ok 0xF065#16 :=
  ⟨by decide, (start [] 0x1000).withFetchWord 16 0xF065, by decide, rfl, rfl⟩
theorem witness_StoreThenLoadRestores :
    ∃ s t u : State, exec (.ldMemVx 15#4) s = .next t ∧ u.mem = t.mem ∧ u.i = t.i ∧ u.params = t.params ∧
      u.reg 0#4 ≠ s.reg 0#4 :=
  ⟨start [(0, 0xAB)] 0x400, _, { start [] 0x400 with mem := [(0x400, 0xAB#8)] }, rfl, rfl, rfl, rfl, by decide⟩
theorem witness_DrawSprite :
    InBounds (start [] 0xFFFF).params.oob (start [] 0xFFFF).i.toNat (0#4).toNat ∧
      InBounds (start [] 0xFF1).params.oob (start [] 0xFF1).i.toNat (15#4).toNat ∧
      ¬ InBounds (start [] 0xFFF).params.oob (start [] 0xFFF).i.toNat (2#4).toNat :=
  by decide
theorem witness_DrawSprite_collides :
    SpriteOn (start [] 0x050) 0#4 0#4 5#4 0 0 ∧
      SpriteCollides { start [] 0x050 with fb := xorPixels blankScreen [(0, 0)] } 0#4 0#4 5#4 :=
  ⟨⟨0, 0, 0x050, by decide, by decide, rfl, rfl, rfl, by decide⟩,
    ⟨0, 0, by decide, by decide, ⟨0, 0, 0x050, by decide, by decide, rfl, rfl, rfl, by decide⟩, by decide⟩⟩
theorem witness_DrawSprite_clear :
    ¬ SpriteOn (start [] 0x050) 0#4 0#4 0#4 63 31 ∧ ¬ SpriteCollides (start [] 0x050) 0#4 0#4 0#4 :=
  ⟨fun ⟨_, _, _, h, _⟩ => absurd h (Nat.not_lt_zero _),
    fun ⟨_, _, _, _, ⟨_, _, _, h, _⟩, _⟩ => absurd h (Nat.not_lt_zero _)⟩
theorem witness_DrawTwiceRestoresScreen :
    ∃ s t : State, (1#4 : RegIdx) ≠ 15#4 ∧ exec (.drw 1#4 1#4 1#4) s = .next t ∧
      pixel s.fb 0 0 = false ∧ pixel t.fb 0 0 = true :=
  ⟨start [] 0x050, _, by decide, rfl, by decide, by decide⟩
theorem witness_DrawTwiceRestoresScreen_none_on :
    ∃ s t : State, exec (.drw 1#4 1#4 0#4) s = .next t ∧
      ¬ ∃ px py, pixel s.fb px py = false ∧ pixel t.fb px py = true :=
  ⟨start [] 0xFFFF, _, rfl, fun ⟨px, py, _, h⟩ =>
    Bool.noConfusion ((pixel_blankScreen px py).symm.trans
      ((congrArg (pixel · px py) (xorPixels_nil _)).symm.trans h))⟩
theorem witness_RandomUnderMask :
    ({ State.reset with rngPending := [0xA7#8] } : State).rngPending = 0xA7#8 :: [] ∧
      State.reset.rngPending = [] :=
  ⟨rfl, rfl⟩
theorem witness_KeyWait :
    LeastEdge newKey 15#4 ∧ ∀ k, ¬ PressEdge (held 9 State.reset) k :=
  by decide
theorem witness_HostWritesOneThing :
    (15 : Nat) < 16 ∧ (16 : Nat) ≤ 16 :=
  by decide
theorem witness_LoadCopiesTheProgram :
    (List.replicate 3584 0xAA#8).length ≤ 3584 ∧ 3584 < (List.replicate 3585 0xAA#8).length :=
  ⟨Nat.le_of_eq List.length_replicate, Nat.le_of_eq List.length_replicate.symm⟩
theorem witness_BootRunsTheLoadedProgram :
    Instr.wellFormed (.ldVxK 3#4) = true ∧ (SysPolicy.unknown = .unknown → ∀ nnn, Instr.ldVxK 3#4 ≠ .sys nnn) ∧
      (List.replicate 3582 0xAA#8).length ≤ 3582 :=
  ⟨rfl, fun _ _ => nofun, Nat.le_of_eq List.length_replicate⟩
theorem witness_ObservationsChangeNothing :
    (63 : Nat) < 64 ∧ (31 : Nat) < 32 ∧ ((64 : Nat) ≤ 64 ∨ (32 : Nat) ≤ 0) ∧
      (∃ t r, transact State.reset (.inspect (.byte 0xFFF)) = .ok (t, r)) ∧ (4095 : Nat) < 4096 ∧ (4096 : Nat) ≤ 4096 ∧
      0 < ({ State.reset with stack := deep 1 } : State).sp ∧ State.reset.sp = 0 ∧
      (15 : Nat) < ({ State.reset with stack := deep 16 } : State).sp :=
  ⟨by decide, by decide, .inl (Nat.le_refl _), ⟨_, _, rfl⟩, by decide, by decide, by decide, rfl, by decide⟩

/-- The state after construction meets the invariant, under every parameter value alike. -/
theorem reset_inv : State.reset.Inv := by decide

end Sys2Proof.Machine.Tests
end

section
/-! Push and Pop as the obligations read them: by the depth `sp` and the entries `stack[k]` (R29 to R31).
A Push and a Pop are one relation between two states, `t.stack = w :: s.stack`, read in either direction, so the
laws `stackEntry_top` and `stackEntry_below` serve both. -/

namespace Sys2Proof.Machine

/-! ## The depth, Push and Pop -/

theorem sp_of_stack_eq_cons {s t : State} {w : Word} (h : t.stack = w :: s.stack) : t.sp = s.sp + 1 := by
  simp [State.sp, h]

theorem pop_of_empty {s : State} (h : s.sp = 0) : pop s = .error .stackUnderflow := by
  have hs : s.stack = [] := List.length_eq_zero_iff.1 h
  simp [pop, hs]

/-- Above depth 0, Pop answers and takes off the newest entry, and changes the stack alone. -/
theorem pop_of_sp_pos {s : State} (h : 0 < s.sp) :
    ∃ w t, pop s = .ok (w, t) ∧ s.stack = w :: t.stack ∧ t = { s with stack := t.stack } := by
  obtain ⟨w, rest, hs⟩ := List.exists_cons_of_length_pos h
  exact ⟨w, { s with stack := rest }, by simp [pop, hs], hs, rfl⟩

theorem sp_le_of_push_eq_ok {s t : State} {w : Word} (h : push s w = .ok t) : t.sp ≤ Config.stackDepth := by
  obtain ⟨hroom, rfl⟩ := push_eq_ok h
  exact hroom

/-! ## The obligation -/

/-- Settles O25: the laws of Push at the full stack and below it, and the laws of Pop at the empty stack and
above it, each with what the pushed or popped entry leaves of the others. -/
theorem pushAndPop : Obligations.PushAndPop := by
  intro s w
  refine ⟨fun hfull => push_of_full s w hfull.ge, fun hroom => ?push, pop_of_empty, fun hpos => ?pop,
    fun _ => sp_le_of_push_eq_ok⟩
  case push =>
    exact ⟨_, push_of_room s w hroom, sp_of_stack_eq_cons rfl, stackEntry_top rfl,
      fun _ => stackEntry_below rfl, rfl⟩
  case pop =>
    obtain ⟨v, t, hpop, hstack, hframe⟩ := pop_of_sp_pos hpos
    have hsp : s.sp - 1 = t.sp := by rw [sp_of_stack_eq_cons hstack, Nat.add_sub_cancel]
    exact ⟨v, t, hpop, hsp ▸ stackEntry_top hstack, hsp.symm,
      fun _ hk => (stackEntry_below hstack hk).symm, hframe⟩

end Sys2Proof.Machine
end

section
/-! The errors of the fetch and the step that raises them (R111), as the obligation on the fetched word reads
them. The words a fetch answers come from `fetch_of_resolve`, with the laws of the address check. -/

namespace Sys2Proof.Machine

/-! ## The fetch that fails the address check -/

theorem memRead_of_fault {s : State} {a : Nat} (hp : s.params.oob = .fault) (ha : Config.memSize ≤ a) :
    memRead s a = .error (.memoryOutOfBounds a) := by
  simp [memRead, hp, resolve_fault_of_le ha]

theorem fetch_of_high_error {s : State} {e : Fault} (hhi : memRead s s.pc.toNat = .error e) :
    fetch s = .error e := by
  simp [fetch, hhi]

theorem fetch_of_low_error {s : State} {e : Fault} {b : Byte} (hhi : memRead s s.pc.toNat = .ok b)
    (hlo : memRead s (s.pc.toNat + 1) = .error e) : fetch s = .error e := by
  simp [fetch, hhi, hlo]

/-- In mode Running the error of the fetch is the outcome of the step. -/
theorem step_of_fetch_error {s : State} {e : Fault} (hm : s.mode = .running) (hf : fetch s = .error e) :
    step s = .fault e := by
  simp [step, hm, hf, raise]

/-! ## The obligation -/

/-- Settles O11: below 4095 and under wrap both bytes pass the address check; under fault the high byte fails it
from 4096 on, and at 4095 the low byte does. -/
theorem fetchReadsBigEndianWord : Obligations.FetchReadsBigEndianWord := by
  intro s
  refine ⟨fun hlt => ?below, fun hp => ?wrap, fun hp hle => ?highByte, fun hp hpc => ?lowByte⟩
  case below =>
    exact fetch_of_resolve s (resolve_of_lt _ (Nat.lt_succ_of_lt hlt)) (resolve_of_lt _ (Nat.succ_lt_succ hlt))
  case wrap =>
    exact fetch_of_resolve s (hp ▸ resolve_wrap _) (hp ▸ resolve_wrap _)
  case highByte =>
    have hf : fetch s = .error (.memoryOutOfBounds s.pc.toNat) := fetch_of_high_error (memRead_of_fault hp hle)
    exact ⟨hf, fun hm => step_of_fetch_error hm hf⟩
  case lowByte =>
    have hhi := memRead_of_lt s (a := s.pc.toNat) (by rw [hpc]; decide)
    have hlo : memRead s (s.pc.toNat + 1) = .error (.memoryOutOfBounds 4096) := by
      rw [hpc]; exact memRead_of_fault hp (Nat.le_refl _)
    have hf : fetch s = .error (.memoryOutOfBounds 4096) := fetch_of_low_error hhi hlo
    exact ⟨hf, fun hm => step_of_fetch_error hm hf⟩

end Sys2Proof.Machine
end

section
/-! Control flow as the obligations read it (41_control_flow.md R131 to R135): the words of RET, JP, CALL and the
two skips on an immediate, what their meanings answer, and the step transaction of a meaning that raises an error. -/

namespace Sys2Proof

/-! ## The words -/

theorem decodeWord_ret (p : SysPolicy) : decodeWord p 0x00EE#16 = .op .ret := by
  rw [decodeWord, if_neg (by decide), if_pos rfl]

theorem decodeWord_jp (p : SysPolicy) (nnn : Addr) : decodeWord p (0x1#4 ++ nnn) = .op (.jp nnn) := by
  rw [decodeWord_of_op_ne _ _ (by simp)]
  simp [decodeFamily]

theorem decodeWord_call (p : SysPolicy) (nnn : Addr) : decodeWord p (0x2#4 ++ nnn) = .op (.call nnn) := by
  rw [decodeWord_of_op_ne _ _ (by simp)]
  simp [decodeFamily]

theorem decodeWord_seImm (p : SysPolicy) (x : RegIdx) (nn : Byte) :
    decodeWord p (0x3#4 ++ x ++ nn) = .op (.seImm x nn) := by
  rw [decodeWord_of_op_ne _ _ (by simp)]
  simp [decodeFamily]

theorem decodeWord_sneImm (p : SysPolicy) (x : RegIdx) (nn : Byte) :
    decodeWord p (0x4#4 ++ x ++ nn) = .op (.sneImm x nn) := by
  rw [decodeWord_of_op_ne _ _ (by simp)]
  simp [decodeFamily]

end Sys2Proof

namespace Sys2Proof.Machine

/-! ## The step transaction of a meaning that raises an error (R116) -/

@[simp] theorem State.sp_advance (s : State) : s.advance.sp = s.sp := rfl

/-- The reply is the error and the caller's state is the one before the step, pc not advanced. -/
theorem transact_step_of_exec_fault {s : State} {w : Word} {i : Instr} {e : Fault} (hm : s.mode = .running)
    (hf : fetch s = .ok w) (hd : decodeWord s.params.sys w = .op i) (he : exec i s.advance = .fault e) :
    transact s .step = .ok (s, .err e) := by
  have hstep : step s = .fault e := by rw [step_of_fetch hm hf hd, he, commit]
  simp [transact, hstep]

/-! ## RET and CALL over Pop and Push -/

theorem exec_ret_of_pop {s t : State} {w : Word} (h : pop s = .ok (w, t)) : exec .ret s = .next (t.setPc w) := by
  simp [exec, execRet, h]

theorem exec_ret_of_empty {s : State} (h : s.sp = 0) : exec .ret s = .fault .stackUnderflow := by
  simp [exec, execRet, pop_of_empty h]

theorem exec_call_of_room (nnn : Addr) {s : State} (h : s.sp < Config.stackDepth) :
    exec (.call nnn) s = .next { s with pc := addrOperand nnn, stack := s.pc :: s.stack } := by
  rw [exec, execCall, push_of_room s _ h, onOk_ok, State.setPc]

theorem exec_call_of_full (nnn : Addr) {s : State} (h : Config.stackDepth ≤ s.sp) :
    exec (.call nnn) s = .fault .stackOverflow := by
  rw [exec, execCall, push_of_full s _ h, onOk_error]

/-! ## The condition of a skip -/

theorem skipIf_beq (s : State) (a b : Byte) :
    s.skipIf (a == b) = { s with pc := if a = b then s.pc + 2#16 else s.pc } := by
  simp only [skipIf_eq, beq_iff_eq]

theorem skipIf_bne (s : State) (a b : Byte) :
    s.skipIf (a != b) = { s with pc := if a = b then s.pc else s.pc + 2#16 } := by
  simp only [skipIf_eq, bne_iff_ne, ne_eq, ite_not]

/-! ## The obligations -/

/-- Settles O28: above depth 0 RET is a Pop whose entry goes to pc; at depth 0 the Pop underflows, and the advance
of the step leaves the depth at 0. -/
theorem retPopsIntoPc : Obligations.RetPopsIntoPc := by
  intro p s
  refine ⟨decodeWord_ret p, fun hpos => ?pops, exec_ret_of_empty, fun hempty hm hf => ?underflow⟩
  case pops =>
    obtain ⟨-, -, -, hpopLaw, -⟩ := pushAndPop s s.pc
    obtain ⟨w, t, hpop, htop, hsp, hbelow, hframe⟩ := hpopLaw hpos
    exact ⟨t.setPc w, exec_ret_of_pop hpop, htop, hsp, hbelow, congrArg (·.setPc w) hframe⟩
  case underflow =>
    exact transact_step_of_exec_fault hm hf (decodeWord_ret _)
      (exec_ret_of_empty (s.sp_advance.trans hempty))

/-- Settles O30: below depth 16 CALL is a Push of the advanced pc and a jump; at depth 16 the Push overflows, and
the advance of the step leaves the depth at 16. -/
theorem callPushesReturnAddress : Obligations.CallPushesReturnAddress := by
  intro p nnn s
  refine ⟨decodeWord_call p nnn, fun hroom => ?pushes, fun hfull => exec_call_of_full nnn hfull.ge,
    fun hfull hm hf => ?overflow⟩
  case pushes =>
    exact ⟨_, exec_call_of_room nnn hroom, sp_of_stack_eq_cons rfl, stackEntry_top rfl,
      fun _ => stackEntry_below rfl, addrOperand_toNat nnn, rfl⟩
  case overflow =>
    exact transact_step_of_exec_fault hm hf (decodeWord_call _ nnn)
      (exec_call_of_full nnn (s.sp_advance.trans hfull).ge)

/-- Settles O29: JP writes its zero-extended operand to pc, whatever its parity. -/
theorem jumpSetsPc : Obligations.JumpSetsPc := fun p nnn s =>
  ⟨decodeWord_jp p nnn, s.setPc (addrOperand nnn), rfl, addrOperand_toNat nnn, rfl⟩

/-- Settles O32: SE skips on equality and SNE on its negation, and a skip changes pc alone. -/
theorem skipsOnImmediate : Obligations.SkipsOnImmediate := fun p x nn s =>
  ⟨decodeWord_seImm p x nn, decodeWord_sneImm p x nn,
    congrArg Host.Outcome.next (skipIf_beq s (s.reg x) nn), congrArg Host.Outcome.next (skipIf_bne s (s.reg x) nn)⟩

end Sys2Proof.Machine
end

section
/-! The arithmetic of family 8 and the two plain loads as the obligations read them (42_alu.md R160, R162, R166 to
R170): the words, the results as numbers, and what their meanings answer. -/

namespace Sys2Proof

/-! ## The words -/

theorem decodeWord_ldImm (p : SysPolicy) (x : RegIdx) (nn : Byte) :
    decodeWord p (0x6#4 ++ x ++ nn) = .op (.ldImm x nn) := by
  rw [decodeWord_of_op_ne _ _ (by simp)]
  simp [decodeFamily]

/-- A word of family 8 is decoded by its low nibble (30_encoding.md R89). -/
theorem decodeWord_alu (p : SysPolicy) (x y n : Nibble) :
    decodeWord p (0x8#4 ++ x ++ y ++ n) = decodeAlu (0x8#4 ++ x ++ y ++ n) := by
  rw [decodeWord_of_op_ne _ _ (by simp)]
  simp [decodeFamily]

theorem decodeWord_ldReg (p : SysPolicy) (x y : RegIdx) :
    decodeWord p (0x8#4 ++ x ++ y ++ 0x0#4) = .op (.ldReg x y) := by
  simp [decodeWord_alu, decodeAlu]

theorem decodeWord_addReg (p : SysPolicy) (x y : RegIdx) :
    decodeWord p (0x8#4 ++ x ++ y ++ 0x4#4) = .op (.addReg x y) := by
  simp [decodeWord_alu, decodeAlu]

theorem decodeWord_subReg (p : SysPolicy) (x y : RegIdx) :
    decodeWord p (0x8#4 ++ x ++ y ++ 0x5#4) = .op (.subReg x y) := by
  simp [decodeWord_alu, decodeAlu]

theorem decodeWord_shr (p : SysPolicy) (x y : RegIdx) :
    decodeWord p (0x8#4 ++ x ++ y ++ 0x6#4) = .op (.shr x y) := by
  simp [decodeWord_alu, decodeAlu]

theorem decodeWord_subnReg (p : SysPolicy) (x y : RegIdx) :
    decodeWord p (0x8#4 ++ x ++ y ++ 0x7#4) = .op (.subnReg x y) := by
  simp [decodeWord_alu, decodeAlu]

theorem decodeWord_shl (p : SysPolicy) (x y : RegIdx) :
    decodeWord p (0x8#4 ++ x ++ y ++ 0xE#4) = .op (.shl x y) := by
  simp [decodeWord_alu, decodeAlu]

end Sys2Proof

namespace Sys2Proof.Machine

/-! ## The results as numbers -/

theorem add_eq_ofNat_mod (a b : Byte) : a + b = BitVec.ofNat 8 ((a.toNat + b.toNat) % 256) := by
  apply BitVec.eq_of_toNat_eq
  simp

theorem sub_eq_ofInt_mod (a b : Byte) : a - b = BitVec.ofInt 8 ((a.toNat - b.toNat : Int) % 256) := by
  apply BitVec.eq_of_toNat_eq
  rw [BitVec.toNat_sub, BitVec.toNat_ofInt]
  omega

theorem ushiftRight_one_eq_ofNat (a : Byte) : a >>> 1 = BitVec.ofNat 8 (a.toNat / 2) := by
  apply BitVec.eq_of_toNat_eq
  have := a.isLt
  rw [BitVec.toNat_ushiftRight, Nat.shiftRight_eq_div_pow, BitVec.toNat_ofNat]
  omega

theorem shiftLeft_one_eq_ofNat (a : Byte) : a <<< 1 = BitVec.ofNat 8 (2 * a.toNat % 256) := by
  apply BitVec.eq_of_toNat_eq
  rw [BitVec.toNat_shiftLeft, Nat.shiftLeft_eq, BitVec.toNat_ofNat]
  omega

/-! ## The result and the flag (R23) -/

/-- The one write of the flag-setting meanings, with its result and flag in the form a claim states them. -/
theorem resultAndFlag_of_eq (s : State) (x : RegIdx) {r r' f f' : Byte} (hr : r = r') (hf : f = f') :
    ResultAndFlag s (s.setResultAndFlag x r f) x r' f' := by
  rw [← hr, ← hf]
  exact resultAndFlag_setResultAndFlag s x r f

/-! ## The obligations -/

/-- Settles O38: ADD writes the sum and then its carry, both of the operands before any write. -/
theorem addSetsCarry : Obligations.AddSetsCarry := fun p x y s =>
  ⟨decodeWord_addReg p x y, _, rfl,
    resultAndFlag_of_eq s x (add_eq_ofNat_mod (s.reg x) (s.reg y)) (carry_eq (s.reg x) (s.reg y))⟩

/-- Settles O39: SUB and SUBN write a difference and then its not-borrow, SUBN with the operands exchanged. -/
theorem subtractSetsNotBorrow : Obligations.SubtractSetsNotBorrow := by
  intro p x y s
  refine ⟨decodeWord_subReg p x y, decodeWord_subnReg p x y, ⟨_, rfl, ?sub⟩, ⟨_, rfl, ?subn⟩⟩
  case sub =>
    exact resultAndFlag_of_eq s x (sub_eq_ofInt_mod (s.reg x) (s.reg y)) (notBorrow_eq (s.reg x) (s.reg y))
  case subn =>
    exact resultAndFlag_of_eq s x (sub_eq_ofInt_mod (s.reg y) (s.reg x)) (notBorrow_eq (s.reg y) (s.reg x))

/-- Settles O40: SHR and SHL halve and double V[X] and then write the bit shifted out, and no answer names V[Y]. -/
theorem shiftsUseVxAlone : Obligations.ShiftsUseVxAlone := by
  intro p x y s
  refine ⟨decodeWord_shr p x y, decodeWord_shl p x y, ⟨_, rfl, ?shr⟩, ⟨_, rfl, ?shl⟩⟩
  case shr =>
    exact resultAndFlag_of_eq s x (ushiftRight_one_eq_ofNat (s.reg x)) (shiftedOutLow_eq (s.reg x))
  case shl =>
    exact resultAndFlag_of_eq s x (shiftLeft_one_eq_ofNat (s.reg x)) (shiftedOutHigh_eq (s.reg x))

/-- Settles O35: both loads are one register write, of NN and of V[Y]. -/
theorem loadImmediateAndCopy : Obligations.LoadImmediateAndCopy := fun p x y nn s =>
  ⟨decodeWord_ldImm p x nn, decodeWord_ldReg p x y,
    ⟨s.setReg x nn, rfl, regWritten_setReg s x nn⟩, ⟨s.setReg x (s.reg y), rfl, regWritten_setReg s x (s.reg y)⟩⟩

end Sys2Proof.Machine
end

section
/-! Setting I, and the block store and load through I, as the obligations read them (43_index_memory.md R200, R206,
R207): the words, what a store and a load give for an address the check resolves, and what their meanings answer. -/

namespace Sys2Proof

/-! ## The words -/

theorem decodeWord_ldI (p : SysPolicy) (nnn : Addr) : decodeWord p (0xA#4 ++ nnn) = .op (.ldI nnn) := by
  rw [decodeWord_of_op_ne _ _ (by simp)]
  simp [decodeFamily]

/-- A word of family F is decoded by its low byte (30_encoding.md R92). -/
theorem decodeWord_misc (p : SysPolicy) (x : RegIdx) (ss : Byte) :
    decodeWord p (0xF#4 ++ x ++ ss) = decodeMisc (0xF#4 ++ x ++ ss) := by
  rw [decodeWord_of_op_ne _ _ (by simp)]
  simp [decodeFamily]

theorem decodeWord_ldMemVx (p : SysPolicy) (x : RegIdx) :
    decodeWord p (0xF#4 ++ x ++ 0x55#8) = .op (.ldMemVx x) := by
  simp [decodeWord_misc, decodeMisc]

theorem decodeWord_ldVxMem (p : SysPolicy) (x : RegIdx) :
    decodeWord p (0xF#4 ++ x ++ 0x65#8) = .op (.ldVxMem x) := by
  simp [decodeWord_misc, decodeMisc]

end Sys2Proof

namespace Sys2Proof.Machine

/-! ## A store in bounds, by the addresses the check resolves (R204) -/

theorem storedMem_read_of_resolve {s : State} {a k b : Nat} {bs : List Byte}
    (h : InBounds s.params.oob a bs.length) (hn : bs.length ≤ Config.memSize) (hk : k < bs.length)
    (hb : resolve s.params.oob (a + k) = .ok b) : (storedMem s a bs).read b = bs[k] := by
  rw [eq_effAddr_of_resolve h hk hb]
  exact storedMem_read_stored s a bs k hk h hn

theorem storedMem_read_of_unreached {s : State} {a b : Nat} {bs : List Byte}
    (h : InBounds s.params.oob a bs.length) (hb : ∀ k < bs.length, resolve s.params.oob (a + k) ≠ .ok b) :
    (storedMem s a bs).read b = s.mem.read b :=
  storedMem_read_outside s a bs b fun k hk he => hb k hk (by rw [resolve_of_inBounds h hk, he])

/-! ## The registers after a load from I (R207) -/

theorem reg_setRegsFromV0_bytesAtI_of_lt (s : State) {n b : Nat} {z : RegIdx} (h : InBounds s.params.oob s.i.toNat n)
    (hz : z.toNat < n) (hb : resolve s.params.oob (s.i.toNat + z.toNat) = .ok b) :
    (s.setRegsFromV0 (bytesAtI s n)).reg z = s.mem.read b := by
  have hlen : z.toNat < (bytesAtI s n).length := by rwa [bytesAtI_length]
  rw [State.reg_setRegsFromV0, List.getD_eq_getElem _ _ hlen, bytesAtI_getElem, eq_effAddr_of_resolve h hz hb]

theorem reg_setRegsFromV0_bytesAtI_of_le (s : State) {n : Nat} {z : RegIdx} (hz : n ≤ z.toNat) :
    (s.setRegsFromV0 (bytesAtI s n)).reg z = s.reg z := by
  rw [State.reg_setRegsFromV0, List.getD_eq_default _ _ (by rwa [bytesAtI_length])]

/-! ## LD [I], Vx and LD Vx, [I] over the address check -/

theorem exec_ldMemVx_of_inBounds {x : RegIdx} {s : State} (h : InBounds s.params.oob s.i.toNat (x.toNat + 1)) :
    exec (.ldMemVx x) s = .next { s with mem := storedMem s s.i.toNat (s.regsUpTo x) } := by
  rw [exec, execLdMemVx, State.base, writeBytes_of_inBounds _ _ _ (by rwa [State.regsUpTo_length]), onOk_ok]

theorem exec_ldMemVx_of_not_inBounds {x : RegIdx} {s : State} (h : ¬ InBounds s.params.oob s.i.toNat (x.toNat + 1)) :
    exec (.ldMemVx x) s = .fault (.memoryOutOfBounds (firstOutside s.i.toNat)) := by
  rw [exec, execLdMemVx, State.base, writeBytes_of_not_inBounds _ _ _ (by rwa [State.regsUpTo_length]), onOk_error]

theorem exec_ldVxMem_of_inBounds {x : RegIdx} {s : State} (h : InBounds s.params.oob s.i.toNat (x.toNat + 1)) :
    exec (.ldVxMem x) s = .next (s.setRegsFromV0 (bytesAtI s (x.toNat + 1))) := by
  rw [exec, execLdVxMem, State.base, readBytes_of_inBounds _ _ _ h, onOk_ok, bytesAtI]

theorem exec_ldVxMem_of_not_inBounds {x : RegIdx} {s : State} (h : ¬ InBounds s.params.oob s.i.toNat (x.toNat + 1)) :
    exec (.ldVxMem x) s = .fault (.memoryOutOfBounds (firstOutside s.i.toNat)) := by
  rw [exec, execLdVxMem, State.base, readBytes_of_not_inBounds _ _ _ h, onOk_error]

/-! ## The obligations -/

/-- Settles O45: in bounds LD [I], Vx is one store of V0 to V[x] at I, read back address by address; out of bounds
the check raises the error, and the step's advance of pc, which keeps I, does not alter the check. -/
theorem blockStore : Obligations.BlockStore := by
  intro p x s
  refine ⟨decodeWord_ldMemVx p x, fun hb => ?stores,
    fun hb => ⟨exec_ldMemVx_of_not_inBounds hb, fun hm hf => ?fault⟩⟩
  case stores =>
    have hlen : (s.regsUpTo x).length = x.toNat + 1 := s.regsUpTo_length x
    have hbs : InBounds s.params.oob s.i.toNat (s.regsUpTo x).length := by rwa [hlen]
    have hsize : (s.regsUpTo x).length ≤ Config.memSize := by
      have := x.isLt
      rw [hlen, Config.memSize]
      omega
    refine ⟨_, exec_ldMemVx_of_inBounds hb, fun z a hz ha => ?stored, fun a ha => ?kept, rfl⟩
    case stored =>
      rw [storedMem_read_of_resolve hbs hsize (by omega) ha, State.regsUpTo_getElem s x z hz]
    case kept =>
      exact storedMem_read_of_unreached hbs fun k hk => ha k (by omega)
  case fault =>
    exact transact_step_of_exec_fault hm hf (decodeWord_ldMemVx _ x) (exec_ldMemVx_of_not_inBounds (s := s.advance) hb)

/-- Settles O46: in bounds LD Vx, [I] fills V0 to V[x] from the bytes at I and a register past the last byte keeps
its value; out of bounds the check raises the error, whether or not pc is advanced. -/
theorem blockLoad : Obligations.BlockLoad := by
  intro p x s
  refine ⟨decodeWord_ldVxMem p x, fun hb => ?loads,
    fun hb => ⟨exec_ldVxMem_of_not_inBounds hb, fun hm hf => ?fault⟩⟩
  case loads =>
    exact ⟨_, exec_ldVxMem_of_inBounds hb,
      fun z a hz ha => reg_setRegsFromV0_bytesAtI_of_lt s hb (Nat.lt_succ_of_le hz) ha,
      fun z hz => reg_setRegsFromV0_bytesAtI_of_le s hz, State.setRegsFromV0_eq s _⟩
  case fault =>
    exact transact_step_of_exec_fault hm hf (decodeWord_ldVxMem _ x) (exec_ldVxMem_of_not_inBounds (s := s.advance) hb)

/-- Settles O41: LD I, nnn writes its zero-extended operand to I. -/
theorem loadIndex : Obligations.LoadIndex := fun p nnn s =>
  ⟨decodeWord_ldI p nnn, s.setI (addrOperand nnn), rfl, addrOperand_toNat nnn, rfl⟩

end Sys2Proof.Machine
end

section
/-! Clearing the screen, as the obligation reads it (44_display.md R234): the word, and the blank screen CLS sets. -/

namespace Sys2Proof

theorem decodeWord_cls (p : SysPolicy) : decodeWord p 0x00E0#16 = .op .cls := by
  rw [decodeWord, if_pos rfl]

end Sys2Proof

namespace Sys2Proof.Machine

theorem exec_cls (s : State) : exec .cls s = .next (s.setScreen blankScreen) := rfl

/-! ## The obligation -/

/-- Settles O48: CLS sets the blank screen, whose pixels are all off, and a screen write changes the framebuffer and
the dirty flag alone. -/
theorem clearScreen : Obligations.ClearScreen := fun p s =>
  ⟨decodeWord_cls p, s.setScreen blankScreen, exec_cls s, pixel_blankScreen, State.setScreen_dirty s _, rfl⟩

end Sys2Proof.Machine
end

section
/-! The timer transfers as the obligation reads them (45_random_input_timers.md R257 to R259): the words, what their
meanings answer, and the sound bit as a number. -/

namespace Sys2Proof

/-! ## The words -/

theorem decodeWord_ldVxDt (p : SysPolicy) (x : RegIdx) :
    decodeWord p (0xF#4 ++ x ++ 0x07#8) = .op (.ldVxDt x) := by
  simp [decodeWord_misc, decodeMisc]

theorem decodeWord_ldDtVx (p : SysPolicy) (x : RegIdx) :
    decodeWord p (0xF#4 ++ x ++ 0x15#8) = .op (.ldDtVx x) := by
  simp [decodeWord_misc, decodeMisc]

theorem decodeWord_ldStVx (p : SysPolicy) (x : RegIdx) :
    decodeWord p (0xF#4 ++ x ++ 0x18#8) = .op (.ldStVx x) := by
  simp [decodeWord_misc, decodeMisc]

end Sys2Proof

namespace Sys2Proof.Machine

/-! ## What the meanings answer -/

theorem exec_ldVxDt (x : RegIdx) (s : State) : exec (.ldVxDt x) s = .next (s.setReg x s.dt) := rfl

theorem exec_ldDtVx (x : RegIdx) (s : State) : exec (.ldDtVx x) s = .next { s with dt := s.reg x } := rfl

theorem exec_ldStVx (x : RegIdx) (s : State) : exec (.ldStVx x) s = .next { s with st := s.reg x } := rfl

/-! ## The sound bit (R297) -/

theorem State.soundActive_eq (s : State) : s.soundActive = decide (0 < s.st.toNat) := by
  rw [State.soundActive, Bool.eq_iff_iff, bne_iff_ne, decide_eq_true_iff, Nat.pos_iff_ne_zero]
  exact BitVec.toNat_ne_iff_ne.symm

theorem transact_soundActive (s : State) :
    transact s .soundActive = .ok (s, .bit (decide (0 < s.st.toNat))) := by
  rw [transact, s.soundActive_eq]

/-! ## The obligation -/

/-- Settles O55: a read of DT is one register write, a write of DT or ST is one field update, and the sound bit
then reads the byte just written to ST. -/
theorem timerTransfers : Obligations.TimerTransfers := fun p x s =>
  ⟨decodeWord_ldVxDt p x, decodeWord_ldDtVx p x, decodeWord_ldStVx p x,
    ⟨s.setReg x s.dt, exec_ldVxDt x s, regWritten_setReg s x s.dt⟩, exec_ldDtVx x s, exec_ldStVx x s,
    transact_soundActive { s with st := s.reg x }⟩

end Sys2Proof.Machine
end

section
/-! The error of a word that does not decode (R95 to R97, R281): what the decoder answers Unknown with, the step
on such a word, and the step transaction of any step that raises an error (R116). -/

namespace Sys2Proof

/-! ## The word that Unknown carries, table by table -/

theorem decodeAlu_eq_unknown {w u : Word} (h : decodeAlu w = .unknown u) : u = w := by
  unfold decodeAlu at h
  split at h <;> cases h
  rfl

theorem decodeKey_eq_unknown {w u : Word} (h : decodeKey w = .unknown u) : u = w := by
  unfold decodeKey at h
  split at h <;> cases h
  rfl

theorem decodeMisc_eq_unknown {w u : Word} (h : decodeMisc w = .unknown u) : u = w := by
  unfold decodeMisc at h
  split at h <;> cases h
  rfl

theorem decodeSys_eq_unknown {p : SysPolicy} {w u : Word} (h : decodeSys p w = .unknown u) : u = w := by
  cases p <;> cases h
  rfl

/-- The strict low nibble of families 5 and 9. -/
theorem ite_op_unknown_eq_unknown {c : Prop} [Decidable c] {i : Instr} {w u : Word}
    (h : (if c then Decoded.op i else .unknown w) = .unknown u) : u = w := by
  split at h <;> cases h
  rfl

theorem decodeFamily_eq_unknown {p : SysPolicy} {w u : Word} (h : decodeFamily p w = .unknown u) : u = w := by
  unfold decodeFamily at h
  split at h
  -- The n-th case is family n - 1; only the families 0, 5, 8, 9, E and F can answer Unknown.
  case h_1 => exact decodeSys_eq_unknown h
  case h_6 | h_10 => exact ite_op_unknown_eq_unknown h
  case h_9 => exact decodeAlu_eq_unknown h
  case h_15 => exact decodeKey_eq_unknown h
  case h_16 => exact decodeMisc_eq_unknown h
  all_goals cases h

/-- Unknown carries the full word that was decoded. -/
theorem decodeWord_eq_unknown {p : SysPolicy} {w u : Word} (h : decodeWord p w = .unknown u) : u = w := by
  unfold decodeWord at h
  split at h
  · cases h
  · split at h
    · cases h
    · exact decodeFamily_eq_unknown h

end Sys2Proof

namespace Sys2Proof.Machine

/-! ## The step that raises an error -/

theorem step_of_unknown {s : State} {w u : Word} (hm : s.mode = .running) (hf : fetch s = .ok w)
    (hd : decodeWord s.params.sys w = .unknown u) : step s = .fault (.decodeUnknown u) := by
  simp [step, hm, hf, hd, raise]

/-- The reply is the error and the caller's state is the one before the step. -/
theorem transact_step_of_fault {s : State} {e : Fault} (h : step s = .fault e) :
    transact s .step = .ok (s, .err e) := by
  simp [transact, h]

/-! ## The obligation -/

/-- Settles O12: Unknown carries the fetched word, so the step raises its error of that word, and the transaction
of a step that raises an error keeps the state. -/
theorem unknownWordRaisesDecodeError : Obligations.UnknownWordRaisesDecodeError := by
  intro s w u hm hf hd
  obtain rfl : u = w := decodeWord_eq_unknown hd
  have hstep : step s = .fault (.decodeUnknown u) := step_of_unknown hm hf hd
  exact ⟨hstep, transact_step_of_fault hstep⟩

end Sys2Proof.Machine
end

section
/-! Ticks of the timers and the dirty bit (R292, R295): a transaction repeated n times iterates its update, and n
ticks subtract n from each timer with floor 0. The sound bit is `transact_soundActive`. -/

namespace Sys2Proof.Machine

/-! ## What the two transactions answer -/

theorem transact_tickTimers (s : State) : transact s .tickTimers = .ok (s.tickTimers, .done) := rfl

theorem transact_takeDirty (s : State) :
    transact s .takeDirty = .ok ({ s with dirty := false }, .bit s.dirty) := rfl

/-! ## A transaction repeated -/

theorem hostRun_cons_of_ok {t : Transaction} {ts : List Transaction} {s s' u : State} {r : Reply} {rs : List Reply}
    (ht : transact s t = .ok (s', r)) (hts : hostRun ts s' = .ok (u, rs)) :
    hostRun (t :: ts) s = .ok (u, r :: rs) := by
  simp [hostRun, ht, hts]

/-- A transaction that answers in every state by one update and one reply is, n times over, the n-th iterate. -/
theorem hostRun_replicate {t : Transaction} {f : State → State} {r : Reply} (h : ∀ s, transact s t = .ok (f s, r))
    (n : Nat) (s : State) : hostRun (List.replicate n t) s = .ok (f^[n] s, List.replicate n r) := by
  induction n generalizing s with
  | zero => rfl
  | succ n ih => exact hostRun_cons_of_ok (h s) (ih (f s))

/-! ## The countdown -/

theorem tickDown_toNat (b : Byte) : (tickDown b).toNat = b.toNat - 1 := by
  unfold tickDown
  split
  case isTrue hzero => rw [hzero]; rfl
  case isFalse hne =>
    have hpos : 0 < b.toNat := Nat.pos_of_ne_zero (BitVec.toNat_ne_iff_ne.2 hne)
    exact BitVec.toNat_sub_of_le (BitVec.le_def.2 hpos)

theorem tickDown_iterate_toNat (n : Nat) (b : Byte) : (tickDown^[n] b).toNat = b.toNat - n := by
  induction n with
  | zero => rfl
  | succ n ih => rw [Function.iterate_succ_apply', tickDown_toNat, ih, Nat.sub_sub]

theorem tickTimers_iterate (n : Nat) (s : State) :
    State.tickTimers^[n] s = { s with dt := tickDown^[n] s.dt, st := tickDown^[n] s.st } := by
  induction n generalizing s with
  | zero => rfl
  | succ n ih => exact ih s.tickTimers

/-! ## The obligations -/

/-- Settles O56: n ticks iterate the countdown of each timer n times, in any mode. -/
theorem ticksCountDownToZero : Obligations.TicksCountDownToZero := by
  intro n s
  refine ⟨_, hostRun_replicate transact_tickTimers n s, ?_⟩
  rw [tickTimers_iterate]
  exact ⟨tickDown_iterate_toNat n s.dt, tickDown_iterate_toNat n s.st, rfl⟩

/-- Settles O26: the read that clears dirty, once and then again on the state it left; and the sound bit as the
comparison of ST with 0. -/
theorem dirtyAndSoundTransactions : Obligations.DirtyAndSoundTransactions := by
  intro s
  refine ⟨⟨_, transact_takeDirty s, rfl, transact_takeDirty _⟩, fun hpos => ?above, fun hzero => ?zero⟩
  case above => rw [transact_soundActive, decide_eq_true hpos]
  case zero => rw [transact_soundActive, decide_eq_false hzero.not_gt]

end Sys2Proof.Machine
end

section
/-! The decoder and the encoder as inverses, and the decoder against the opcode table (30_encoding.md sections 1 to 4
and 6): the words not read above, what a decoded word encodes to, and the words of a row, by the row's mask. -/

namespace Sys2Proof

/-! ## The words -/

theorem decodeWord_sys_nop (nnn : Addr) (h : Instr.wellFormed (.sys nnn) = true) :
    decodeWord .nop (0x0#4 ++ nnn) = .op (.sys nnn) := by
  obtain ⟨hcls, hret⟩ := sys_word_ne_fixed nnn h
  rw [decodeWord_of_ne _ _ hcls hret]
  simp [decodeFamily, decodeSys]

theorem decodeWord_sys_unknown (nnn : Addr) (h : Instr.wellFormed (.sys nnn) = true) :
    decodeWord .unknown (0x0#4 ++ nnn) = .unknown (0x0#4 ++ nnn) := by
  obtain ⟨hcls, hret⟩ := sys_word_ne_fixed nnn h
  rw [decodeWord_of_ne _ _ hcls hret]
  simp [decodeFamily, decodeSys]

/-- Families 5 and 9 take the low nibble 0 alone (30_encoding.md R88, R95). -/
theorem decodeWord_family5 (p : SysPolicy) (x y n : Nibble) :
    decodeWord p (0x5#4 ++ x ++ y ++ n) =
      if n = 0x0#4 then .op (.seReg x y) else .unknown (0x5#4 ++ x ++ y ++ n) := by
  rw [decodeWord_of_op_ne _ _ (by simp)]
  simp [decodeFamily]

theorem decodeWord_family9 (p : SysPolicy) (x y n : Nibble) :
    decodeWord p (0x9#4 ++ x ++ y ++ n) =
      if n = 0x0#4 then .op (.sneReg x y) else .unknown (0x9#4 ++ x ++ y ++ n) := by
  rw [decodeWord_of_op_ne _ _ (by simp)]
  simp [decodeFamily]

theorem decodeWord_seReg (p : SysPolicy) (x y : RegIdx) :
    decodeWord p (0x5#4 ++ x ++ y ++ 0x0#4) = .op (.seReg x y) := by
  rw [decodeWord_family5, if_pos rfl]

theorem decodeWord_sneReg (p : SysPolicy) (x y : RegIdx) :
    decodeWord p (0x9#4 ++ x ++ y ++ 0x0#4) = .op (.sneReg x y) := by
  rw [decodeWord_family9, if_pos rfl]

theorem decodeWord_addImm (p : SysPolicy) (x : RegIdx) (nn : Byte) :
    decodeWord p (0x7#4 ++ x ++ nn) = .op (.addImm x nn) := by
  rw [decodeWord_of_op_ne _ _ (by simp)]
  simp [decodeFamily]

theorem decodeWord_orReg (p : SysPolicy) (x y : RegIdx) :
    decodeWord p (0x8#4 ++ x ++ y ++ 0x1#4) = .op (.orReg x y) := by
  simp [decodeWord_alu, decodeAlu]

theorem decodeWord_andReg (p : SysPolicy) (x y : RegIdx) :
    decodeWord p (0x8#4 ++ x ++ y ++ 0x2#4) = .op (.andReg x y) := by
  simp [decodeWord_alu, decodeAlu]

theorem decodeWord_xorReg (p : SysPolicy) (x y : RegIdx) :
    decodeWord p (0x8#4 ++ x ++ y ++ 0x3#4) = .op (.xorReg x y) := by
  simp [decodeWord_alu, decodeAlu]

theorem decodeWord_jpV0 (p : SysPolicy) (nnn : Addr) : decodeWord p (0xB#4 ++ nnn) = .op (.jpV0 nnn) := by
  rw [decodeWord_of_op_ne _ _ (by simp)]
  simp [decodeFamily]

theorem decodeWord_rnd (p : SysPolicy) (x : RegIdx) (nn : Byte) :
    decodeWord p (0xC#4 ++ x ++ nn) = .op (.rnd x nn) := by
  rw [decodeWord_of_op_ne _ _ (by simp)]
  simp [decodeFamily]

theorem decodeWord_drw (p : SysPolicy) (x y : RegIdx) (n : Nibble) :
    decodeWord p (0xD#4 ++ x ++ y ++ n) = .op (.drw x y n) := by
  rw [decodeWord_of_op_ne _ _ (by simp)]
  simp [decodeFamily]

/-- A word of family E is decoded by its low byte (30_encoding.md R91). -/
theorem decodeWord_key (p : SysPolicy) (x : RegIdx) (ss : Byte) :
    decodeWord p (0xE#4 ++ x ++ ss) = decodeKey (0xE#4 ++ x ++ ss) := by
  rw [decodeWord_of_op_ne _ _ (by simp)]
  simp [decodeFamily]

theorem decodeWord_skp (p : SysPolicy) (x : RegIdx) : decodeWord p (0xE#4 ++ x ++ 0x9E#8) = .op (.skp x) := by
  simp [decodeWord_key, decodeKey]

theorem decodeWord_sknp (p : SysPolicy) (x : RegIdx) : decodeWord p (0xE#4 ++ x ++ 0xA1#8) = .op (.sknp x) := by
  simp [decodeWord_key, decodeKey]

theorem decodeWord_ldVxK (p : SysPolicy) (x : RegIdx) : decodeWord p (0xF#4 ++ x ++ 0x0A#8) = .op (.ldVxK x) := by
  simp [decodeWord_misc, decodeMisc]

theorem decodeWord_addI (p : SysPolicy) (x : RegIdx) : decodeWord p (0xF#4 ++ x ++ 0x1E#8) = .op (.addI x) := by
  simp [decodeWord_misc, decodeMisc]

theorem decodeWord_ldF (p : SysPolicy) (x : RegIdx) : decodeWord p (0xF#4 ++ x ++ 0x29#8) = .op (.ldF x) := by
  simp [decodeWord_misc, decodeMisc]

theorem decodeWord_ldB (p : SysPolicy) (x : RegIdx) : decodeWord p (0xF#4 ++ x ++ 0x33#8) = .op (.ldB x) := by
  simp [decodeWord_misc, decodeMisc]

/-! ## Decode after encode -/

/-- Every operation by its word's lemma; SYS alone asks for a policy and for its operand. -/
theorem decodeWord_encode (p : SysPolicy) {i : Instr} (hwf : i.wellFormed = true)
    (hp : p = .unknown → ∀ nnn, i ≠ .sys nnn) : decodeWord p (encode i) = .op i := by
  cases i with
  | sys nnn =>
    cases p with
    | nop => exact decodeWord_sys_nop nnn hwf
    | unknown => exact absurd rfl (hp rfl nnn)
  | cls => exact decodeWord_cls p
  | ret => exact decodeWord_ret p
  | jp nnn => exact decodeWord_jp p nnn
  | call nnn => exact decodeWord_call p nnn
  | seImm x nn => exact decodeWord_seImm p x nn
  | sneImm x nn => exact decodeWord_sneImm p x nn
  | seReg x y => exact decodeWord_seReg p x y
  | ldImm x nn => exact decodeWord_ldImm p x nn
  | addImm x nn => exact decodeWord_addImm p x nn
  | ldReg x y => exact decodeWord_ldReg p x y
  | orReg x y => exact decodeWord_orReg p x y
  | andReg x y => exact decodeWord_andReg p x y
  | xorReg x y => exact decodeWord_xorReg p x y
  | addReg x y => exact decodeWord_addReg p x y
  | subReg x y => exact decodeWord_subReg p x y
  | shr x y => exact decodeWord_shr p x y
  | subnReg x y => exact decodeWord_subnReg p x y
  | shl x y => exact decodeWord_shl p x y
  | sneReg x y => exact decodeWord_sneReg p x y
  | ldI nnn => exact decodeWord_ldI p nnn
  | jpV0 nnn => exact decodeWord_jpV0 p nnn
  | rnd x nn => exact decodeWord_rnd p x nn
  | drw x y n => exact decodeWord_drw p x y n
  | skp x => exact decodeWord_skp p x
  | sknp x => exact decodeWord_sknp p x
  | ldVxDt x => exact decodeWord_ldVxDt p x
  | ldVxK x => exact decodeWord_ldVxK p x
  | ldDtVx x => exact decodeWord_ldDtVx p x
  | ldStVx x => exact decodeWord_ldStVx p x
  | addI x => exact decodeWord_addI p x
  | ldF x => exact decodeWord_ldF p x
  | ldB x => exact decodeWord_ldB p x
  | ldMemVx x => exact decodeWord_ldMemVx p x
  | ldVxMem x => exact decodeWord_ldVxMem p x

theorem decodeBytes_of_decodeWord {p : SysPolicy} {w : Word} {i : Instr} (h : decodeWord p w = .op i)
    (rest : List Byte) : decodeBytes p (bytesOfWord w ++ rest) = .ok (i, rest) := by
  simp [bytesOfWord, decodeBytes, wordOfBytes_bytes, h]

/-- Settles O6: the word decoder operation by operation, and the byte decoder from it. -/
theorem decodeEncodeRoundTrip : Obligations.DecodeEncodeRoundTrip := by
  intro p i rest hwf hp
  have hword : decodeWord p (encode i) = .op i := decodeWord_encode p hwf hp
  exact ⟨hword, decodeBytes_of_decodeWord hword rest⟩

/-! ## Encode after decode, table by table -/

theorem decodeAlu_eq_op {w : Word} {i : Instr} (h : decodeAlu w = .op i) :
    i.wellFormed = true ∧ encode i = 0x8#4 ++ xField w ++ yField w ++ nField w := by
  unfold decodeAlu at h
  split at h <;> cases h
  all_goals next hn => exact ⟨rfl, by rw [hn, encode]⟩

theorem decodeKey_eq_op {w : Word} {i : Instr} (h : decodeKey w = .op i) :
    i.wellFormed = true ∧ encode i = 0xE#4 ++ xField w ++ nnField w := by
  unfold decodeKey at h
  split at h <;> cases h
  all_goals next hss => exact ⟨rfl, by rw [hss, encode]⟩

theorem decodeMisc_eq_op {w : Word} {i : Instr} (h : decodeMisc w = .op i) :
    i.wellFormed = true ∧ encode i = 0xF#4 ++ xField w ++ nnField w := by
  unfold decodeMisc at h
  split at h <;> cases h
  all_goals next hss => exact ⟨rfl, by rw [hss, encode]⟩

/-- SYS's operand is that of neither exact word, since those are decoded first (30_encoding.md R85). -/
theorem sysOperandOk_nnnField {w : Word} (hop : opField w = 0x0#4) (hcls : w ≠ 0x00E0#16) (hret : w ≠ 0x00EE#16) :
    Instr.sysOperandOk (nnnField w) = true := by
  have hw : (0x0#4 ++ nnnField w : Word) = w := by rw [← hop, word_eq_nnn]
  have hne (k : Addr) (hk : w ≠ 0x0#4 ++ k) : nnnField w ≠ k := fun h => hk (by rw [← h, hw])
  simp [Instr.sysOperandOk, hne 0x0E0#12 hcls, hne 0x0EE#12 hret]

theorem decodeFamily_eq_op {p : SysPolicy} {w : Word} {i : Instr} (hcls : w ≠ 0x00E0#16) (hret : w ≠ 0x00EE#16)
    (h : decodeFamily p w = .op i) : i.wellFormed = true ∧ encode i = w := by
  unfold decodeFamily at h
  split at h
  case h_1 hop =>
    cases p <;> cases h
    exact ⟨sysOperandOk_nnnField hop hcls hret, by rw [encode, ← hop, word_eq_nnn]⟩
  case h_9 hop =>
    obtain ⟨hwf, henc⟩ := decodeAlu_eq_op h
    exact ⟨hwf, by rw [henc, ← hop, word_eq_xyn]⟩
  case h_15 hop =>
    obtain ⟨hwf, henc⟩ := decodeKey_eq_op h
    exact ⟨hwf, by rw [henc, ← hop, word_eq_xnn]⟩
  case h_16 =>
    obtain ⟨hwf, henc⟩ := decodeMisc_eq_op h
    have hop : opField w = 0xF#4 := by
      have := nibble_cases (opField w)
      tauto
    exact ⟨hwf, by rw [henc, ← hop, word_eq_xnn]⟩
  case h_6 hop =>
    split at h <;> cases h
    next hn => exact ⟨rfl, by rw [encode, ← hop, ← hn, word_eq_xyn]⟩
  case h_10 hop =>
    split at h <;> cases h
    next hn => exact ⟨rfl, by rw [encode, ← hop, ← hn, word_eq_xyn]⟩
  case h_14 hop =>
    cases h
    exact ⟨rfl, by rw [encode, ← hop, word_eq_xyn]⟩
  case h_2 hop | h_3 hop | h_11 hop | h_12 hop =>
    cases h
    exact ⟨rfl, by rw [encode, ← hop, word_eq_nnn]⟩
  case h_4 hop | h_5 hop | h_7 hop | h_8 hop | h_13 hop =>
    cases h
    exact ⟨rfl, by rw [encode, ← hop, word_eq_xnn]⟩

theorem decodeWord_eq_op {p : SysPolicy} {w : Word} {i : Instr} (h : decodeWord p w = .op i) :
    i.wellFormed = true ∧ encode i = w := by
  unfold decodeWord at h
  split at h
  case isTrue hcls => cases h; exact ⟨rfl, hcls.symm⟩
  case isFalse hcls =>
    split at h
    case isTrue hret => cases h; exact ⟨rfl, hret.symm⟩
    case isFalse hret => exact decodeFamily_eq_op hcls hret h

/-- Settles O7: each table reads off the fields the encoder puts back, and Unknown carries the word decoded. -/
theorem encodeDecodeRoundTrip : Obligations.EncodeDecodeRoundTrip := fun _ _ =>
  ⟨fun _ => decodeWord_eq_op, fun _ => decodeWord_eq_unknown⟩

/-! ## The words of a row, by the row's mask -/

section
variable {w value : Word} (k : Nibble)

theorem eq_nnn_of_and_mask (hv : value = (k ++ 0#12 : Word)) (h : w &&& 0xF000#16 = value) :
    ∃ nnn : Addr, w = k ++ nnn := by
  have hop : opField w = k := (and_mask_op_eq_iff w k).1 (h.trans hv)
  exact ⟨nnnField w, by rw [← hop, word_eq_nnn]⟩

theorem eq_xnn_of_and_mask (hv : value = (k ++ 0#12 : Word)) (h : w &&& 0xF000#16 = value) :
    ∃ (x : RegIdx) (nn : Byte), w = k ++ x ++ nn := by
  have hop : opField w = k := (and_mask_op_eq_iff w k).1 (h.trans hv)
  exact ⟨xField w, nnField w, by rw [← hop, word_eq_xnn]⟩

theorem eq_xyn_of_and_mask (hv : value = (k ++ 0#12 : Word)) (h : w &&& 0xF000#16 = value) :
    ∃ (x y : RegIdx) (n : Nibble), w = k ++ x ++ y ++ n := by
  have hop : opField w = k := (and_mask_op_eq_iff w k).1 (h.trans hv)
  exact ⟨xField w, yField w, nField w, by rw [← hop, word_eq_xyn]⟩

theorem eq_xys_of_and_mask (n : Nibble) (hv : value = (k ++ 0#4 ++ 0#4 ++ n : Word)) (h : w &&& 0xF00F#16 = value) :
    ∃ x y : RegIdx, w = k ++ x ++ y ++ n := by
  obtain ⟨hop, hn⟩ := (and_mask_xys_eq_iff w k n).1 (h.trans hv)
  exact ⟨xField w, yField w, by rw [← hop, ← hn, word_eq_xyn]⟩

theorem eq_xss_of_and_mask (ss : Byte) (hv : value = (k ++ 0#4 ++ ss : Word)) (h : w &&& 0xF0FF#16 = value) :
    ∃ x : RegIdx, w = k ++ x ++ ss := by
  obtain ⟨hop, hss⟩ := (and_mask_xss_eq_iff w k ss).1 (h.trans hv)
  exact ⟨xField w, by rw [← hop, ← hss, word_eq_xnn]⟩

end

/-! ## The decoder against the table -/

theorem matchesWord_iff (r : OpcodeRow) (w : Word) :
    r.matchesWord w = true ↔ w &&& r.mask = r.value ∧ w ∉ r.butFor := by
  simp [OpcodeRow.matchesWord]

/-- A word of an operation's row is the encoding of an operation of that row. -/
theorem exists_encode_of_matchesWord {i : Instr} {w : Word} (h : i.row.matchesWord w = true) :
    ∃ j, j.wellFormed = true ∧ encode j = w ∧ j.row = i.row := by
  obtain ⟨hmask, hbut⟩ := (matchesWord_iff _ _).1 h
  cases i with
  | sys =>
    obtain ⟨nnn, rfl⟩ := eq_nnn_of_and_mask 0x0#4 rfl hmask
    refine ⟨.sys nnn, ?_, rfl, rfl⟩
    have hcls : nnn ≠ 0x0E0#12 := fun hn => hbut (by simp [hn, Instr.row])
    have hret : nnn ≠ 0x0EE#12 := fun hn => hbut (by simp [hn, Instr.row])
    simp [Instr.wellFormed, Instr.sysOperandOk, hcls, hret]
  | cls => exact ⟨.cls, rfl, hmask.symm.trans (BitVec.and_allOnes (x := w)), rfl⟩
  | ret => exact ⟨.ret, rfl, hmask.symm.trans (BitVec.and_allOnes (x := w)), rfl⟩
  | jp => obtain ⟨nnn, rfl⟩ := eq_nnn_of_and_mask 0x1#4 rfl hmask; exact ⟨.jp nnn, rfl, rfl, rfl⟩
  | call => obtain ⟨nnn, rfl⟩ := eq_nnn_of_and_mask 0x2#4 rfl hmask; exact ⟨.call nnn, rfl, rfl, rfl⟩
  | seImm => obtain ⟨x, nn, rfl⟩ := eq_xnn_of_and_mask 0x3#4 rfl hmask; exact ⟨.seImm x nn, rfl, rfl, rfl⟩
  | sneImm => obtain ⟨x, nn, rfl⟩ := eq_xnn_of_and_mask 0x4#4 rfl hmask; exact ⟨.sneImm x nn, rfl, rfl, rfl⟩
  | seReg => obtain ⟨x, y, rfl⟩ := eq_xys_of_and_mask 0x5#4 0x0#4 rfl hmask; exact ⟨.seReg x y, rfl, rfl, rfl⟩
  | ldImm => obtain ⟨x, nn, rfl⟩ := eq_xnn_of_and_mask 0x6#4 rfl hmask; exact ⟨.ldImm x nn, rfl, rfl, rfl⟩
  | addImm => obtain ⟨x, nn, rfl⟩ := eq_xnn_of_and_mask 0x7#4 rfl hmask; exact ⟨.addImm x nn, rfl, rfl, rfl⟩
  | ldReg => obtain ⟨x, y, rfl⟩ := eq_xys_of_and_mask 0x8#4 0x0#4 rfl hmask; exact ⟨.ldReg x y, rfl, rfl, rfl⟩
  | orReg => obtain ⟨x, y, rfl⟩ := eq_xys_of_and_mask 0x8#4 0x1#4 rfl hmask; exact ⟨.orReg x y, rfl, rfl, rfl⟩
  | andReg => obtain ⟨x, y, rfl⟩ := eq_xys_of_and_mask 0x8#4 0x2#4 rfl hmask; exact ⟨.andReg x y, rfl, rfl, rfl⟩
  | xorReg => obtain ⟨x, y, rfl⟩ := eq_xys_of_and_mask 0x8#4 0x3#4 rfl hmask; exact ⟨.xorReg x y, rfl, rfl, rfl⟩
  | addReg => obtain ⟨x, y, rfl⟩ := eq_xys_of_and_mask 0x8#4 0x4#4 rfl hmask; exact ⟨.addReg x y, rfl, rfl, rfl⟩
  | subReg => obtain ⟨x, y, rfl⟩ := eq_xys_of_and_mask 0x8#4 0x5#4 rfl hmask; exact ⟨.subReg x y, rfl, rfl, rfl⟩
  | shr => obtain ⟨x, y, rfl⟩ := eq_xys_of_and_mask 0x8#4 0x6#4 rfl hmask; exact ⟨.shr x y, rfl, rfl, rfl⟩
  | subnReg => obtain ⟨x, y, rfl⟩ := eq_xys_of_and_mask 0x8#4 0x7#4 rfl hmask; exact ⟨.subnReg x y, rfl, rfl, rfl⟩
  | shl => obtain ⟨x, y, rfl⟩ := eq_xys_of_and_mask 0x8#4 0xE#4 rfl hmask; exact ⟨.shl x y, rfl, rfl, rfl⟩
  | sneReg => obtain ⟨x, y, rfl⟩ := eq_xys_of_and_mask 0x9#4 0x0#4 rfl hmask; exact ⟨.sneReg x y, rfl, rfl, rfl⟩
  | ldI => obtain ⟨nnn, rfl⟩ := eq_nnn_of_and_mask 0xA#4 rfl hmask; exact ⟨.ldI nnn, rfl, rfl, rfl⟩
  | jpV0 => obtain ⟨nnn, rfl⟩ := eq_nnn_of_and_mask 0xB#4 rfl hmask; exact ⟨.jpV0 nnn, rfl, rfl, rfl⟩
  | rnd => obtain ⟨x, nn, rfl⟩ := eq_xnn_of_and_mask 0xC#4 rfl hmask; exact ⟨.rnd x nn, rfl, rfl, rfl⟩
  | drw => obtain ⟨x, y, n, rfl⟩ := eq_xyn_of_and_mask 0xD#4 rfl hmask; exact ⟨.drw x y n, rfl, rfl, rfl⟩
  | skp => obtain ⟨x, rfl⟩ := eq_xss_of_and_mask 0xE#4 0x9E#8 rfl hmask; exact ⟨.skp x, rfl, rfl, rfl⟩
  | sknp => obtain ⟨x, rfl⟩ := eq_xss_of_and_mask 0xE#4 0xA1#8 rfl hmask; exact ⟨.sknp x, rfl, rfl, rfl⟩
  | ldVxDt => obtain ⟨x, rfl⟩ := eq_xss_of_and_mask 0xF#4 0x07#8 rfl hmask; exact ⟨.ldVxDt x, rfl, rfl, rfl⟩
  | ldVxK => obtain ⟨x, rfl⟩ := eq_xss_of_and_mask 0xF#4 0x0A#8 rfl hmask; exact ⟨.ldVxK x, rfl, rfl, rfl⟩
  | ldDtVx => obtain ⟨x, rfl⟩ := eq_xss_of_and_mask 0xF#4 0x15#8 rfl hmask; exact ⟨.ldDtVx x, rfl, rfl, rfl⟩
  | ldStVx => obtain ⟨x, rfl⟩ := eq_xss_of_and_mask 0xF#4 0x18#8 rfl hmask; exact ⟨.ldStVx x, rfl, rfl, rfl⟩
  | addI => obtain ⟨x, rfl⟩ := eq_xss_of_and_mask 0xF#4 0x1E#8 rfl hmask; exact ⟨.addI x, rfl, rfl, rfl⟩
  | ldF => obtain ⟨x, rfl⟩ := eq_xss_of_and_mask 0xF#4 0x29#8 rfl hmask; exact ⟨.ldF x, rfl, rfl, rfl⟩
  | ldB => obtain ⟨x, rfl⟩ := eq_xss_of_and_mask 0xF#4 0x33#8 rfl hmask; exact ⟨.ldB x, rfl, rfl, rfl⟩
  | ldMemVx => obtain ⟨x, rfl⟩ := eq_xss_of_and_mask 0xF#4 0x55#8 rfl hmask; exact ⟨.ldMemVx x, rfl, rfl, rfl⟩
  | ldVxMem => obtain ⟨x, rfl⟩ := eq_xss_of_and_mask 0xF#4 0x65#8 rfl hmask; exact ⟨.ldVxMem x, rfl, rfl, rfl⟩

/-- The whole family of `Laws.EncodedRow`, over the constructors. -/
theorem row_matchesWord_encode {i : Instr} (hwf : i.wellFormed = true) : i.row.matchesWord (encode i) = true := by
  cases i with
  | sys nnn => exact Laws.EncodedRow.sys nnn hwf
  | cls => exact Laws.EncodedRow.cls hwf
  | ret => exact Laws.EncodedRow.ret hwf
  | jp nnn => exact Laws.EncodedRow.jp nnn hwf
  | call nnn => exact Laws.EncodedRow.call nnn hwf
  | seImm x nn => exact Laws.EncodedRow.seImm x nn hwf
  | sneImm x nn => exact Laws.EncodedRow.sneImm x nn hwf
  | seReg x y => exact Laws.EncodedRow.seReg x y hwf
  | ldImm x nn => exact Laws.EncodedRow.ldImm x nn hwf
  | addImm x nn => exact Laws.EncodedRow.addImm x nn hwf
  | ldReg x y => exact Laws.EncodedRow.ldReg x y hwf
  | orReg x y => exact Laws.EncodedRow.orReg x y hwf
  | andReg x y => exact Laws.EncodedRow.andReg x y hwf
  | xorReg x y => exact Laws.EncodedRow.xorReg x y hwf
  | addReg x y => exact Laws.EncodedRow.addReg x y hwf
  | subReg x y => exact Laws.EncodedRow.subReg x y hwf
  | shr x y => exact Laws.EncodedRow.shr x y hwf
  | subnReg x y => exact Laws.EncodedRow.subnReg x y hwf
  | shl x y => exact Laws.EncodedRow.shl x y hwf
  | sneReg x y => exact Laws.EncodedRow.sneReg x y hwf
  | ldI nnn => exact Laws.EncodedRow.ldI nnn hwf
  | jpV0 nnn => exact Laws.EncodedRow.jpV0 nnn hwf
  | rnd x nn => exact Laws.EncodedRow.rnd x nn hwf
  | drw x y n => exact Laws.EncodedRow.drw x y n hwf
  | skp x => exact Laws.EncodedRow.skp x hwf
  | sknp x => exact Laws.EncodedRow.sknp x hwf
  | ldVxDt x => exact Laws.EncodedRow.ldVxDt x hwf
  | ldVxK x => exact Laws.EncodedRow.ldVxK x hwf
  | ldDtVx x => exact Laws.EncodedRow.ldDtVx x hwf
  | ldStVx x => exact Laws.EncodedRow.ldStVx x hwf
  | addI x => exact Laws.EncodedRow.addI x hwf
  | ldF x => exact Laws.EncodedRow.ldF x hwf
  | ldB x => exact Laws.EncodedRow.ldB x hwf
  | ldMemVx x => exact Laws.EncodedRow.ldMemVx x hwf
  | ldVxMem x => exact Laws.EncodedRow.ldVxMem x hwf

theorem row_mem_opcodeRows (i : Instr) : i.row ∈ opcodeRows := by
  cases i <;> simp [opcodeRows, Instr.samples, Instr.row]

theorem opcodeRows_nodup : opcodeRows.Nodup := by decide

theorem exists_row_of_mem_opcodeRows {r : OpcodeRow} (h : r ∈ opcodeRows) : ∃ i : Instr, i.row = r := by
  obtain ⟨i, -, hi⟩ := List.mem_map.1 h
  exact ⟨i, hi⟩

/-- A word of a row of the table decodes to an operation of that row. -/
theorem decodeWord_of_matchesWord {r : OpcodeRow} {w : Word} (hr : r ∈ opcodeRows) (h : r.matchesWord w = true) :
    ∃ j, decodeWord .nop w = .op j ∧ j.row = r := by
  obtain ⟨i, rfl⟩ := exists_row_of_mem_opcodeRows hr
  obtain ⟨j, hwf, rfl, hrow⟩ := exists_encode_of_matchesWord h
  exact ⟨j, decodeWord_encode .nop hwf (fun hp => by cases hp), hrow⟩

theorem row_matchesWord_of_decodeWord {p : SysPolicy} {w : Word} {i : Instr} (h : decodeWord p w = .op i) :
    i.row.matchesWord w = true := by
  obtain ⟨hwf, rfl⟩ := decodeWord_eq_op h
  exact row_matchesWord_encode hwf

/-- Two rows that share a word are one: the word decodes to one operation, which has one row. -/
theorem row_eq_of_matchesWord {r q : OpcodeRow} {w : Word} (hr : r ∈ opcodeRows) (hq : q ∈ opcodeRows)
    (hrw : r.matchesWord w = true) (hqw : q.matchesWord w = true) : r = q := by
  obtain ⟨i, hi, rfl⟩ := decodeWord_of_matchesWord hr hrw
  obtain ⟨j, hj, rfl⟩ := decodeWord_of_matchesWord hq hqw
  obtain rfl : i = j := by simpa [hi] using hj
  rfl

/-- Settles O8: an operation's word lies in its row (after O7), a row's word decodes to an operation of that row
(after O6), and so no word lies in two of the 35 different rows. -/
theorem decoderMatchesOpcodeTable : Obligations.DecoderMatchesOpcodeTable := by
  refine ⟨rfl, fun w => ⟨fun i hi => ⟨row_mem_opcodeRows i, row_matchesWord_of_decodeWord hi⟩, ?unknown, ?disjoint⟩⟩
  case unknown =>
    refine ⟨fun hu r hr => Bool.eq_false_iff.2 fun hrw => ?_, fun hnone => ?_⟩
    · obtain ⟨j, hj, -⟩ := decodeWord_of_matchesWord hr hrw
      rw [hu] at hj
      cases hj
    · cases hd : decodeWord .nop w with
      | op i => exact absurd (row_matchesWord_of_decodeWord hd) (by simp [hnone _ (row_mem_opcodeRows i)])
      | unknown u => rw [decodeWord_eq_unknown hd]
  case disjoint =>
    refine opcodeRows_nodup.imp_of_mem fun hr hq hne => ?_
    rintro ⟨hrw, hqw⟩
    exact hne (row_eq_of_matchesWord hr hq hrw hqw)

/-- Settles O9: the decoder evaluated on each word. -/
theorem sampleWordsDecode : Obligations.SampleWordsDecode := by
  unfold Obligations.SampleWordsDecode
  decide

end Sys2Proof
end

section
/-! What exec may change, read and raise, over all instructions (10_state.md, 60_exceptions.md section 2): one frame
for the next states of every instruction, from which the obligations on single fields follow. -/

namespace Sys2Proof.Machine

/-! ## LD B and DRW over the address check -/

theorem exec_ldB_of_inBounds {x : RegIdx} {s : State} (h : InBounds s.params.oob s.i.toNat 3) :
    exec (.ldB x) s = .next { s with mem := storedMem s s.i.toNat (bcdDigits (s.reg x)) } := by
  rw [exec, execLdB, State.base, writeBytes_of_inBounds _ _ _ (by rwa [bcdDigits_length]), onOk_ok]

theorem exec_ldB_of_not_inBounds {x : RegIdx} {s : State} (h : ¬ InBounds s.params.oob s.i.toNat 3) :
    exec (.ldB x) s = .fault (.memoryOutOfBounds (firstOutside s.i.toNat)) := by
  rw [exec, execLdB, State.base, writeBytes_of_not_inBounds _ _ _ (by rwa [bcdDigits_length]), onOk_error]

/-- The sprite DRW draws: the bytes at I, at the origin the registers give (R231, R235). -/
def drawnSprite (s : State) (x y : RegIdx) (n : Nibble) : Framebuffer × Bool :=
  drawSprite s.fb (s.reg x).toNat (s.reg y).toNat (bytesAtI s n.toNat)

theorem exec_drw_of_inBounds {x y : RegIdx} {n : Nibble} {s : State} (h : InBounds s.params.oob s.i.toNat n.toNat) :
    exec (.drw x y n) s =
      .next ((s.setScreen (drawnSprite s x y n).1).setReg vf (flagByte (drawnSprite s x y n).2)) := by
  rw [exec, execDrw, State.base, readBytes_of_inBounds _ _ _ h, onOk_ok, drawnSprite, bytesAtI]

theorem exec_drw_of_not_inBounds {x y : RegIdx} {n : Nibble} {s : State}
    (h : ¬ InBounds s.params.oob s.i.toNat n.toNat) :
    exec (.drw x y n) s = .fault (.memoryOutOfBounds (firstOutside s.i.toNat)) := by
  rw [exec, execDrw, State.base, readBytes_of_not_inBounds _ _ _ h, onOk_error]

/-! ## RET, RND and LD Vx, K over the stack, the random source and the press edges -/

theorem exec_ret_of_cons {s : State} {w : Word} {rest : List Word} (h : s.stack = w :: rest) :
    exec .ret s = .next { s with pc := w, stack := rest } := by
  have hpop : pop s = .ok (w, { s with stack := rest }) := by simp [pop, h]
  rw [exec_ret_of_pop hpop, State.setPc]

theorem exec_rnd_of_pending (x : RegIdx) (nn : Byte) {s : State} {r : Byte} {rest : List Byte}
    (h : s.rngPending = r :: rest) :
    exec (.rnd x nn) s = .next (({ s with rngPending := rest } : State).setReg x (r &&& nn)) := by
  rw [exec, execRnd, draw8_pending s h]

theorem exec_rnd_of_free (x : RegIdx) (nn : Byte) {s : State} (h : s.rngPending = []) :
    exec (.rnd x nn) s =
      .next (({ s with rngDrawn := s.rngDrawn + 1 } : State).setReg x (Config.freeDraw s.rngDrawn &&& nn)) := by
  rw [exec, execRnd, draw8_free s h]

theorem exec_ldVxK_of_firstEdge (x : RegIdx) {s : State} {k : KeyIdx} (h : s.firstEdge = some k) :
    exec (.ldVxK x) s = .next (s.setReg x (keyByte k)) := by
  simp [exec, execLdVxK, h]

theorem exec_ldVxK_of_no_edge (x : RegIdx) {s : State} (h : s.firstEdge = none) :
    exec (.ldVxK x) s = .next ((s.setMode (.awaitingKey x)).setPc s.instrAddr) := by
  simp [exec, execLdVxK, h]

/-! ## The frame of every instruction -/

/-- The pieces of state an instruction may change, all others being those of s. -/
def ExecFrame (i : Instr) (s t : State) : Prop :=
  match i with
  | .sys _ => t = s
  | .cls => ∃ f d, t = { s with fb := f, dirty := d }
  | .ret | .call _ => ∃ w l, t = { s with pc := w, stack := l }
  | .jp _ | .jpV0 _ | .seImm _ _ | .sneImm _ _ | .seReg _ _ | .sneReg _ _ | .skp _ | .sknp _ =>
    ∃ w, t = { s with pc := w }
  | .ldImm _ _ | .addImm _ _ | .ldReg _ _ | .orReg _ _ | .andReg _ _ | .xorReg _ _ | .addReg _ _ | .subReg _ _
  | .shr _ _ | .subnReg _ _ | .shl _ _ | .ldVxDt _ | .ldVxMem _ => ∃ v, t = { s with v := v }
  | .ldI _ | .addI _ | .ldF _ => ∃ w, t = { s with i := w }
  | .rnd _ _ => ∃ v l k, t = { s with v := v, rngPending := l, rngDrawn := k }
  | .drw _ _ _ => ∃ v f d, t = { s with v := v, fb := f, dirty := d }
  | .ldVxK _ => ∃ v m w, t = { s with v := v, mode := m, pc := w }
  | .ldDtVx _ => ∃ b, t = { s with dt := b }
  | .ldStVx _ => ∃ b, t = { s with st := b }
  | .ldB _ | .ldMemVx _ => ∃ m, t = { s with mem := m }

theorem execFrame_of_next {i : Instr} {s t : State} (h : exec i s = .next t) : ExecFrame i s t := by
  cases i with
  | sys => cases h; rfl
  | cls => cases h; exact ⟨_, _, rfl⟩
  | ret => exact ⟨_, _, (execRet_next h).2⟩
  | call => exact ⟨_, _, (execCall_next h).2⟩
  | jp | jpV0 => cases h; exact ⟨_, rfl⟩
  | seImm | sneImm | seReg | sneReg | skp | sknp => cases h; exact ⟨_, skipIf_eq s _⟩
  | ldImm | addImm | ldReg | orReg | andReg | xorReg | addReg | subReg | shr | subnReg | shl | ldVxDt =>
    cases h; exact ⟨_, rfl⟩
  | ldVxMem => obtain ⟨-, rfl⟩ := execLdVxMem_next h; exact ⟨_, rfl⟩
  | ldI | addI | ldF => cases h; exact ⟨_, rfl⟩
  | rnd => obtain ⟨l, k, rfl⟩ := execRnd_next h; exact ⟨_, l, k, rfl⟩
  | drw => obtain ⟨-, rfl⟩ := execDrw_next h; exact ⟨_, _, _, rfl⟩
  | ldVxK => obtain ⟨k, -, rfl⟩ | ⟨-, rfl⟩ := execLdVxK_next h <;> exact ⟨_, _, _, rfl⟩
  | ldDtVx | ldStVx => cases h; exact ⟨_, rfl⟩
  | ldB => exact ⟨_, (execLdB_next h).2⟩
  | ldMemVx => exact ⟨_, (execLdMemVx_next h).2⟩

/-- Settles O23: the frame of each instruction, read field by field. -/
theorem stateWrittenOnlyByName : Obligations.StateWrittenOnlyByName := by
  intro i s t h
  have hframe : ExecFrame i s t := execFrame_of_next h
  cases i with
  | sys => cases hframe; simp
  | cls | ret | call => obtain ⟨_, _, rfl⟩ := hframe; simp
  | rnd | drw | ldVxK => obtain ⟨_, _, _, rfl⟩ := hframe; simp
  | _ => obtain ⟨_, rfl⟩ := hframe; simp

/-! ## The registers -/

/-- Settles O22: an instruction that writes no register keeps the register file, and of the others each writes
V[x], V[x] and VF, VF alone, or V0 to V[x]. -/
theorem registersWrittenOnlyByName : Obligations.RegistersWrittenOnlyByName := by
  intro i s t z h hz
  cases i with
  | ldImm | addImm | ldReg | orReg | andReg | xorReg | ldVxDt =>
    cases h
    exact State.reg_setReg_ne s _ (by simpa using hz)
  | addReg | subReg | shr | subnReg | shl =>
    cases h
    obtain ⟨hzx, hzf⟩ : z ≠ _ ∧ z ≠ 15#4 := by simpa using hz
    rw [State.reg_setResultAndFlag, if_neg hzf, if_neg hzx]
  | rnd =>
    obtain ⟨l, k, rfl⟩ := execRnd_next h
    exact State.reg_setReg_ne _ _ (by simpa using hz)
  | drw =>
    obtain ⟨-, rfl⟩ := execDrw_next h
    exact State.reg_setReg_ne _ _ (by simpa using hz)
  | ldVxK =>
    obtain ⟨k, -, rfl⟩ | ⟨-, rfl⟩ := execLdVxK_next h
    · exact State.reg_setReg_ne s _ (by simpa using hz)
    · rfl
  | ldVxMem =>
    obtain ⟨-, rfl⟩ := execLdVxMem_next h
    exact reg_setRegsFromV0_bytesAtI_of_le s (by simpa using hz)
  | sys => cases execFrame_of_next h; rfl
  | cls | ret | call => obtain ⟨_, _, rfl⟩ := execFrame_of_next h; rfl
  | _ => obtain ⟨_, rfl⟩ := execFrame_of_next h; rfl

/-! ## The errors -/

/-- Which instruction raises which error in which state (60_exceptions.md R282 to R284). -/
def ExecError (i : Instr) (s : State) (e : Fault) : Prop :=
  ((∃ nnn, i = .call nnn) ∧ 16 ≤ s.sp ∧ e = .stackOverflow) ∨
  (i = .ret ∧ s.sp = 0 ∧ e = .stackUnderflow) ∨
  (((∃ x y n, i = .drw x y n) ∨ (∃ x, i = .ldB x) ∨ (∃ x, i = .ldMemVx x) ∨ (∃ x, i = .ldVxMem x)) ∧
    s.params.oob = .fault ∧ e = .memoryOutOfBounds (firstOutside s.i.toNat))

/-- An instruction that accesses memory at I answers a next state in bounds, and else raises the error of the first
address out of range. -/
theorem exec_cases_of_access {i : Instr} {s : State} {n : Nat}
    (hi : (∃ x y n, i = .drw x y n) ∨ (∃ x, i = .ldB x) ∨ (∃ x, i = .ldMemVx x) ∨ (∃ x, i = .ldVxMem x))
    (hin : InBounds s.params.oob s.i.toNat n → ∃ t, exec i s = .next t)
    (hout : ¬ InBounds s.params.oob s.i.toNat n → exec i s = .fault (.memoryOutOfBounds (firstOutside s.i.toNat))) :
    (∃ t, exec i s = .next t) ∨ ∃ e, exec i s = .fault e ∧ ExecError i s e := by
  by_cases hb : InBounds s.params.oob s.i.toNat n
  · exact .inl (hin hb)
  · exact .inr ⟨_, hout hb, .inr (.inr ⟨hi, oob_of_not_inBounds hb, rfl⟩)⟩

/-- All that exec can answer: a next state or one of those errors, and no refusal. -/
theorem exec_cases (i : Instr) (s : State) :
    (∃ t, exec i s = .next t) ∨ ∃ e, exec i s = .fault e ∧ ExecError i s e := by
  cases i with
  | call nnn =>
    by_cases hroom : s.sp < Config.stackDepth
    · exact .inl ⟨_, exec_call_of_room nnn hroom⟩
    · have hfull := Nat.le_of_not_lt hroom
      exact .inr ⟨_, exec_call_of_full nnn hfull, .inl ⟨⟨nnn, rfl⟩, hfull, rfl⟩⟩
  | ret =>
    rcases Nat.eq_zero_or_pos s.sp with hempty | hpos
    · exact .inr ⟨_, exec_ret_of_empty hempty, .inr (.inl ⟨rfl, hempty, rfl⟩)⟩
    · obtain ⟨w, t, hpop, -⟩ := pop_of_sp_pos hpos
      exact .inl ⟨_, exec_ret_of_pop hpop⟩
  | drw => exact exec_cases_of_access (by simp) (fun hb => ⟨_, exec_drw_of_inBounds hb⟩) exec_drw_of_not_inBounds
  | ldB => exact exec_cases_of_access (by simp) (fun hb => ⟨_, exec_ldB_of_inBounds hb⟩) exec_ldB_of_not_inBounds
  | ldMemVx =>
    exact exec_cases_of_access (by simp) (fun hb => ⟨_, exec_ldMemVx_of_inBounds hb⟩) exec_ldMemVx_of_not_inBounds
  | ldVxMem =>
    exact exec_cases_of_access (by simp) (fun hb => ⟨_, exec_ldVxMem_of_inBounds hb⟩) exec_ldVxMem_of_not_inBounds
  | ldVxK x =>
    cases hedge : s.firstEdge with
    | some k => exact .inl ⟨_, exec_ldVxK_of_firstEdge x hedge⟩
    | none => exact .inl ⟨_, exec_ldVxK_of_no_edge x hedge⟩
  | _ => exact .inl ⟨_, rfl⟩

/-- Settles O18: of all that exec can answer, the faults. -/
theorem execErrorKinds : Obligations.ExecErrorKinds := by
  intro i s e h
  obtain ⟨t, ht⟩ | ⟨e', he, hkind⟩ := exec_cases i s
  · rw [ht] at h; cases h
  · rw [he] at h; cases h; exact hkind

/-! ## What no instruction reads -/

/-- A change of the screen, the dirty flag and ST. -/
def State.mapOutputs (F : Framebuffer → Framebuffer) (D : Bool → Bool) (B : Byte → Byte) (s : State) : State :=
  { s with fb := F s.fb, dirty := D s.dirty, st := B s.st }

/-- An instruction that writes neither the screen nor ST does the same before and after such a change. -/
theorem exec_mapOutputs (F : Framebuffer → Framebuffer) (D : Bool → Bool) (B : Byte → Byte) (i : Instr) (s : State)
    (hcls : i ≠ .cls) (hdrw : ∀ x y n, i ≠ .drw x y n) (hst : ∀ x, i ≠ .ldStVx x) :
    exec i (s.mapOutputs F D B) = mapNext (State.mapOutputs F D B) (exec i s) := by
  cases i with
  | cls => exact absurd rfl hcls
  | drw x y n => exact absurd rfl (hdrw x y n)
  | ldStVx x => exact absurd rfl (hst x)
  | seImm | sneImm | seReg | sneReg | skp | sknp =>
    exact congrArg Host.Outcome.next (by rw [skipIf_eq, skipIf_eq]; rfl)
  | ret =>
    cases hs : s.stack with
    | nil =>
      have hempty : s.sp = 0 := congrArg List.length hs
      rw [exec_ret_of_empty hempty, exec_ret_of_empty (s := s.mapOutputs F D B) hempty]
    | cons w rest => rw [exec_ret_of_cons hs, exec_ret_of_cons (s := s.mapOutputs F D B) hs]; rfl
  | call nnn =>
    by_cases hroom : s.sp < Config.stackDepth
    · rw [exec_call_of_room nnn hroom, exec_call_of_room nnn (s := s.mapOutputs F D B) hroom]; rfl
    · have hfull := Nat.le_of_not_lt hroom
      rw [exec_call_of_full nnn hfull, exec_call_of_full nnn (s := s.mapOutputs F D B) hfull]
  | ldB x =>
    by_cases hb : InBounds s.params.oob s.i.toNat 3
    · rw [exec_ldB_of_inBounds hb, exec_ldB_of_inBounds (s := s.mapOutputs F D B) hb]; rfl
    · rw [exec_ldB_of_not_inBounds hb, exec_ldB_of_not_inBounds (s := s.mapOutputs F D B) hb]; rfl
  | ldMemVx x =>
    by_cases hb : InBounds s.params.oob s.i.toNat (x.toNat + 1)
    · rw [exec_ldMemVx_of_inBounds hb, exec_ldMemVx_of_inBounds (s := s.mapOutputs F D B) hb]; rfl
    · rw [exec_ldMemVx_of_not_inBounds hb, exec_ldMemVx_of_not_inBounds (s := s.mapOutputs F D B) hb]; rfl
  | ldVxMem x =>
    by_cases hb : InBounds s.params.oob s.i.toNat (x.toNat + 1)
    · rw [exec_ldVxMem_of_inBounds hb, exec_ldVxMem_of_inBounds (s := s.mapOutputs F D B) hb]; rfl
    · rw [exec_ldVxMem_of_not_inBounds hb, exec_ldVxMem_of_not_inBounds (s := s.mapOutputs F D B) hb]; rfl
  | ldVxK x =>
    cases hedge : s.firstEdge with
    | some k => rw [exec_ldVxK_of_firstEdge x hedge, exec_ldVxK_of_firstEdge x (s := s.mapOutputs F D B) hedge]; rfl
    | none => rw [exec_ldVxK_of_no_edge x hedge, exec_ldVxK_of_no_edge x (s := s.mapOutputs F D B) hedge]; rfl
  | rnd x nn =>
    cases hp : s.rngPending with
    | nil => rw [exec_rnd_of_free x nn hp, exec_rnd_of_free x nn (s := s.mapOutputs F D B) hp]; rfl
    | cons b rest => rw [exec_rnd_of_pending x nn hp, exec_rnd_of_pending x nn (s := s.mapOutputs F D B) hp]; rfl
  | _ => rfl

/-- A register written twice holds the second value. -/
theorem setReg_setReg (s : State) (x : RegIdx) (b c : Byte) : (s.setReg x b).setReg x c = s.setReg x c := by
  simp [State.setReg]

/-- DRW reads the screen for what it draws and for the collision bit alone. -/
theorem exec_drw_of_screen (x y : RegIdx) (n : Nibble) (s : State) (f : Framebuffer) (d : Bool) :
    ∃ g c, exec (.drw x y n) { s with fb := f, dirty := d } =
      mapNext (fun t => ({ t with fb := g } : State).setReg 15#4 c) (exec (.drw x y n) s) := by
  by_cases hb : InBounds s.params.oob s.i.toNat n.toNat
  · rw [exec_drw_of_inBounds hb, exec_drw_of_inBounds (s := { s with fb := f, dirty := d }) hb]
    exact ⟨_, _, congrArg Host.Outcome.next (setReg_setReg _ vf (flagByte _) _).symm⟩
  · rw [exec_drw_of_not_inBounds hb, exec_drw_of_not_inBounds (s := { s with fb := f, dirty := d }) hb]
    exact ⟨f, 0#8, rfl⟩

theorem exec_drw_of_st (x y : RegIdx) (n : Nibble) (s : State) (b : Byte) :
    exec (.drw x y n) { s with st := b } = mapNext (fun t => { t with st := b }) (exec (.drw x y n) s) := by
  by_cases hb : InBounds s.params.oob s.i.toNat n.toNat
  · rw [exec_drw_of_inBounds hb, exec_drw_of_inBounds (s := { s with st := b }) hb]; rfl
  · rw [exec_drw_of_not_inBounds hb, exec_drw_of_not_inBounds (s := { s with st := b }) hb]

/-- Settles O24: the instructions that write neither the screen nor ST by `exec_mapOutputs`, and CLS, DRW and LD ST,
which write one of them, by their own meanings. -/
theorem screenIsReadOnlyByCollision : Obligations.ScreenIsReadOnlyByCollision := by
  intro i s f d b
  refine ⟨?screen, rfl, fun x y n => exec_drw_of_screen x y n s f d, ?sound, fun t h => ?kept⟩
  case screen =>
    by_cases hst : ∃ x, i = .ldStVx x
    · obtain ⟨x, rfl⟩ := hst
      exact .inr rfl
    · refine or_iff_not_imp_left.2 fun hscreen => ?_
      push Not at hst hscreen
      exact exec_mapOutputs (fun _ => f) (fun _ => d) id i s hscreen.1 hscreen.2 hst
  case sound =>
    refine or_iff_not_imp_left.2 fun hst => ?_
    push Not at hst
    by_cases hcls : i = .cls
    · subst hcls; rfl
    · by_cases hdrw : ∃ x y n, i = .drw x y n
      · obtain ⟨x, y, n, rfl⟩ := hdrw
        exact exec_drw_of_st x y n s b
      · push Not at hdrw
        exact exec_mapOutputs id id (fun _ => b) i s hcls hdrw hst
  case kept =>
    obtain ⟨hscreen, -⟩ := stateWrittenOnlyByName i s t h
    exact hscreen

end Sys2Proof.Machine
end

section
/-! The step over all states (40_step_cycle.md R110 to R120): the decoded instruction it runs, the poll of the key
wait, what every completed step commits and keeps, its errors, and the invariant along every run of the host. -/

namespace Sys2Proof.Machine

/-! ## The step -/

/-- The commit, as claims write it (R115). -/
theorem commit_eq_mapNext (r : Result) : commit r = mapNext (fun t => { t with keysPrev := t.keys }) r := by
  cases r <;> rfl

theorem step_of_awaitingKey {s : State} {x : RegIdx} (h : s.mode = .awaitingKey x) :
    step s = .next (pollKey x s).commitKeys := by
  simp [step, h]

theorem pollKey_of_firstEdge (x : RegIdx) {s : State} {k : KeyIdx} (h : s.firstEdge = some k) :
    pollKey x s = ((s.setReg x (keyByte k)).advance).setMode .running := by
  simp [pollKey, h]

theorem pollKey_of_no_edge (x : RegIdx) {s : State} (h : s.firstEdge = none) : pollKey x s = s := by
  simp [pollKey, h]

/-- A fetched word that decodes is executed on the state with pc advanced, and a next state is committed. -/
theorem step_of_fetch_op {s : State} {w : Word} {i : Instr} (hm : s.mode = .running) (hf : fetch s = .ok w)
    (hd : decodeWord s.params.sys w = .op i) :
    step s = mapNext (fun t => { t with keysPrev := t.keys }) (exec i { s with pc := s.pc + 2#16 }) := by
  rw [step_of_fetch hm hf hd, commit_eq_mapNext, State.advance, State.setPc]

/-- Settles O10: the two bytes the check resolves make the fetched word. -/
theorem stepRunsTheDecodedInstruction : Obligations.StepRunsTheDecodedInstruction :=
  fun s _ _ _ hm hhi hlo hd => step_of_fetch_op hm (fetch_of_resolve s hhi hlo) hd

/-! ## The press edge of the key wait (R118, R255) -/

theorem firstEdge_of_leastEdge {s : State} {k : KeyIdx} (h : LeastEdge s k) : s.firstEdge = some k := by
  obtain ⟨⟨hkey, hprev⟩, hleast⟩ := h
  exact firstEdge_of_least hkey hprev fun j hj hjp => hleast j ⟨hj, hjp⟩

theorem firstEdge_of_no_pressEdge {s : State} (h : ∀ k, ¬ PressEdge s k) : s.firstEdge = none :=
  (firstEdge_eq_none s).2 h

/-- Settles O14: the poll on the least edge and on none, each with the commit. -/
theorem awaitingKeyPoll : Obligations.AwaitingKeyPoll := by
  intro x s hm
  rw [step_of_awaitingKey hm]
  refine ⟨fun k hk => ⟨_, rfl, ?edge⟩, fun hnone => ?noEdge⟩
  case edge =>
    rw [pollKey_of_firstEdge x (firstEdge_of_leastEdge hk), keyByte_eq]
    exact ⟨State.reg_setReg_self s x _, fun z hz => State.reg_setReg_ne s _ hz, rfl⟩
  case noEdge =>
    rw [pollKey_of_no_edge x (firstEdge_of_no_pressEdge hnone)]
    rfl

/-- Settles O54: LD Vx, K on the least edge and on none. -/
theorem keyWait : Obligations.KeyWait := by
  intro p x s
  refine ⟨decodeWord_ldVxK p x, fun k hk => ⟨_, exec_ldVxK_of_firstEdge x (firstEdge_of_leastEdge hk), ?edge⟩,
    fun hnone => exec_ldVxK_of_no_edge x (firstEdge_of_no_pressEdge hnone)⟩
  case edge =>
    rw [← keyByte_eq]
    exact regWritten_setReg s x (keyByte k)

/-! ## What a completed step commits and keeps -/

/-- Settles O15: neither the poll nor an instruction writes keys or the parameters, and the commit comes last. -/
theorem stepCommitsKeysAndKeepsInputs : Obligations.StepCommitsKeysAndKeepsInputs := by
  intro s t h
  obtain ⟨x, -, rfl⟩ | ⟨w, i, u, -, -, -, hexec, rfl⟩ := step_next h
  case inl =>
    obtain ⟨v, p, m, hpoll⟩ := pollKey_frame x s
    simp [hpoll]
  case inr =>
    obtain ⟨-, -, -, -, -, -, -, -, -, hkeys, -, hparams⟩ := stateWrittenOnlyByName i s.advance u hexec
    exact ⟨hkeys, hkeys, hparams⟩

theorem exec_dt {i : Instr} {s t : State} (h : exec i s = .next t) :
    t.dt = s.dt ∨ ∃ x, i = .ldDtVx x ∧ t.dt = s.reg x := by
  obtain ⟨-, hkept, -⟩ := stateWrittenOnlyByName i s t h
  by_cases hi : ∃ x, i = .ldDtVx x
  · obtain ⟨x, rfl⟩ := hi
    cases h
    exact .inr ⟨x, rfl, rfl⟩
  · exact .inl (hkept (not_exists.1 hi))

theorem exec_st {i : Instr} {s t : State} (h : exec i s = .next t) :
    t.st = s.st ∨ ∃ x, i = .ldStVx x ∧ t.st = s.reg x := by
  obtain ⟨-, -, hkept, -⟩ := stateWrittenOnlyByName i s t h
  by_cases hi : ∃ x, i = .ldStVx x
  · obtain ⟨x, rfl⟩ := hi
    cases h
    exact .inr ⟨x, rfl, rfl⟩
  · exact .inl (hkept (not_exists.1 hi))

/-- Settles O16: of all instructions only LD DT writes DT and only LD ST writes ST, and the poll writes neither. -/
theorem stepLeavesTimersToHost : Obligations.StepLeavesTimersToHost := by
  intro s t h
  obtain ⟨x, -, rfl⟩ | ⟨w, i, u, hm, hf, hd, hexec, rfl⟩ := step_next h
  case inl =>
    obtain ⟨v, p, m, hpoll⟩ := pollKey_frame x s
    simp [hpoll]
  case inr =>
    exact ⟨(exec_dt hexec).imp_right fun ⟨x, hi, hdt⟩ => ⟨w, x, hm, hf, hi ▸ hd, hdt⟩,
      (exec_st hexec).imp_right fun ⟨x, hi, hst⟩ => ⟨w, x, hm, hf, hi ▸ hd, hst⟩⟩

/-! ## The errors of the step -/

/-- All that a step can answer other than a next state. -/
theorem step_cases (s : State) :
    (∃ t, step s = .next t) ∨
    (s.mode = .running ∧ ∃ e, step s = .fault e ∧
      (fetch s = .error e ∨ (∃ w, e = .decodeUnknown w) ∨ ∃ i, ExecError i s.advance e)) := by
  cases hm : s.mode with
  | awaitingKey x => exact .inl ⟨_, step_of_awaitingKey hm⟩
  | running =>
    cases hf : fetch s with
    | error e => exact .inr ⟨rfl, e, step_of_fetch_error hm hf, .inl rfl⟩
    | ok w =>
      cases hd : decodeWord s.params.sys w with
      | unknown u => exact .inr ⟨rfl, _, step_of_unknown hm hf hd, .inr (.inl ⟨u, rfl⟩)⟩
      | op i =>
        rw [step_of_fetch hm hf hd]
        obtain ⟨t, ht⟩ | ⟨e, he, hkind⟩ := exec_cases i s.advance
        · exact .inl ⟨t.commitKeys, by rw [ht, commit]⟩
        · exact .inr ⟨rfl, e, by rw [he, commit], .inr (.inr ⟨i, hkind⟩)⟩

/-- Settles O17: an error of a step is the fetch's, Unknown, or the instruction's, and each of them is listed. -/
theorem stepErrorsAreTheTaxonomy : Obligations.StepErrorsAreTheTaxonomy := by
  intro s
  obtain ⟨t, ht⟩ | ⟨hm, e, he, hkind⟩ := step_cases s
  case inl => simp [ht]
  case inr =>
    refine ⟨by simp [he], fun e' he' => ⟨hm, ?_⟩⟩
    obtain rfl : e = e' := by simpa [he] using he'
    obtain hf | hw | ⟨i, hcall | hret | ⟨-, hoob, haddr⟩⟩ := hkind
    · exact .inr (.inr (.inr (fetch_eq_error hf)))
    · exact .inl hw
    · exact .inr (.inl hcall.2.2)
    · exact .inr (.inr (.inl hret.2.2))
    · exact .inr (.inr (.inr ⟨_, haddr, Nat.le_max_right _ _, hoob⟩))

/-- Settles O19: the transaction of a failing step keeps the state, so the next step fails the same way. -/
theorem failedStepChangesNothing : Obligations.FailedStepChangesNothing := by
  intro s e n h
  have hreply : transact s .step = .ok (s, .err e) := transact_step_of_fault h
  refine ⟨hreply, ?_⟩
  induction n with
  | zero => rfl
  | succ n ih => exact hostRun_cons_of_ok hreply ih

/-! ## The invariant -/

/-- Settles O3: no entry and no listed byte. -/
theorem resetMeetsInvariant : Obligations.ResetMeetsInvariant := fun _ =>
  ⟨Nat.zero_le _, List.Pairwise.nil, fun _ hc => absurd hc List.not_mem_nil⟩

/-- CALL grows the stack below depth 16 alone, RET shrinks it, and no other instruction writes it. -/
theorem exec_keeps_depth {i : Instr} {s t : State} (h : exec i s = .next t)
    (hs : s.stack.length ≤ Config.stackDepth) : t.stack.length ≤ Config.stackDepth := by
  obtain ⟨-, -, -, hkept, -⟩ := stateWrittenOnlyByName i s t h
  by_cases hcall : ∃ nnn, i = .call nnn
  · obtain ⟨nnn, rfl⟩ := hcall
    obtain ⟨hroom, rfl⟩ := execCall_next h
    exact hroom
  · by_cases hret : i = .ret
    · subst hret
      obtain ⟨hpop, -⟩ := execRet_next h
      rw [hpop, List.length_cons] at hs
      exact Nat.le_of_succ_le hs
    · rwa [hkept (not_exists.1 hcall) hret]

/-- LD B and LD [I] store at indices the address check has passed, and no other instruction writes memory. -/
theorem exec_keeps_canonical {i : Instr} {s t : State} (h : exec i s = .next t) (hs : s.mem.wf) : t.mem.wf := by
  obtain ⟨-, -, -, -, -, hkept, -⟩ := stateWrittenOnlyByName i s t h
  by_cases hbcd : ∃ x, i = .ldB x
  · obtain ⟨x, rfl⟩ := hbcd
    obtain ⟨u, hwrite, hu⟩ := onOk_eq_next h
    cases hu
    exact (writeBytes_eq_ok hwrite).2 hs
  · by_cases hstore : ∃ x, i = .ldMemVx x
    · obtain ⟨x, rfl⟩ := hstore
      obtain ⟨u, hwrite, hu⟩ := onOk_eq_next h
      cases hu
      exact (writeBytes_eq_ok hwrite).2 hs
    · rwa [hkept (not_exists.1 hbcd) (not_exists.1 hstore)]

/-- Settles O4: the poll, the advance and the commit write neither the stack nor memory, and every instruction keeps
the depth and the canonical form. -/
theorem stepKeepsInvariant : Obligations.StepKeepsInvariant := by
  rintro s t ⟨hdepth, hmem⟩ h
  obtain ⟨x, -, rfl⟩ | ⟨w, i, u, -, -, -, hexec, rfl⟩ := step_next h
  case inl =>
    obtain ⟨v, p, m, hpoll⟩ := pollKey_frame x s
    rw [hpoll]
    exact ⟨hdepth, hmem⟩
  case inr =>
    have hdepth' : u.stack.length ≤ Config.stackDepth := exec_keeps_depth hexec hdepth
    have hmem' : u.mem.wf := exec_keeps_canonical hexec hmem
    exact ⟨hdepth', hmem'⟩

/-- A program's cells are inside memory: 3584 bytes from 0x200 end at 0x1000 (R13, R294). -/
theorem lt_memSize_of_mem_romCells {bytes : List Byte} (h : bytes.length ≤ Config.maxRom) {c : Nat × Byte}
    (hc : c ∈ romCells bytes) : c.1 < Config.memSize := by
  have haddr := List.mem_range'_1.1 (List.of_mem_zip hc).1
  simp only [Config.maxRom, Config.progStart, Config.memSize] at h haddr ⊢
  omega

theorem load_of_fits (s : State) {bytes : List Byte} (h : bytes.length ≤ Config.maxRom) :
    load s bytes = .ok { s with mem := s.mem.writeAll (romCells bytes) } := by
  rw [load, if_neg (Nat.not_lt.2 h)]

theorem load_of_too_long (s : State) {bytes : List Byte} (h : Config.maxRom < bytes.length) :
    load s bytes = .error .loadError := by
  rw [load, if_pos h]

theorem load_keeps_inv {s t : State} {bytes : List Byte} (hs : s.Inv) (h : load s bytes = .ok t) : t.Inv := by
  obtain ⟨hdepth, hmem⟩ := hs
  rcases Nat.lt_or_ge Config.maxRom bytes.length with hlong | hfits
  · rw [load_of_too_long s hlong] at h; cases h
  · rw [load_of_fits s hfits] at h
    cases h
    exact ⟨hdepth, Memory.wf_writeAll hmem _ fun _ => lt_memSize_of_mem_romCells hfits⟩

/-- Every transaction keeps the invariant: a step by O4, a load inside memory, and the others write neither the stack
nor memory. -/
theorem transact_keeps_inv {s t : State} {a : Transaction} {r : Reply} (hs : s.Inv)
    (h : transact s a = .ok (t, r)) : t.Inv := by
  cases a with
  | step =>
    obtain ⟨u, hu⟩ | ⟨-, e, he, -⟩ := step_cases s
    · simp only [transact, hu] at h
      cases h
      exact stepKeepsInvariant s t hs hu
    · rw [transact_step_of_fault he] at h; cases h; exact hs
  | load bytes =>
    cases hl : load s bytes with
    | ok u => simp only [transact, hl] at h; cases h; exact load_keeps_inv hs hl
    | error e => simp only [transact, hl] at h; cases h; exact hs
  | setKey | isSet | inspect => simp only [transact] at h; split at h <;> cases h; exact hs
  | tickTimers | takeDirty | snapshot | soundActive | setPc => cases h; exact hs

/-- Settles O5: by induction on the transactions, each of which keeps the invariant. -/
theorem hostRunKeepsInvariant : Obligations.HostRunKeepsInvariant := by
  intro as
  induction as with
  | nil => intro s t rs hs h; cases h; exact hs
  | cons a as ih =>
    intro s t rs hs h
    simp only [hostRun] at h
    split at h
    · cases h
    · next s' r ha =>
      split at h
      · cases h
      · next s'' rs' has => cases h; exact ih s' t rs' (transact_keeps_inv hs ha) has

end Sys2Proof.Machine
end

section
/-! The instructions the obligations read one by one: SYS, RET after CALL, the skips on registers and keys, JP V0, ADD
Vx, nn, the bitwise operations, I and the glyphs, LD B, the store seen by a load and by a fetch, and RND. -/

namespace Sys2Proof.Machine

/-! ## Control flow -/

/-- Settles O27: SYS answers the state it is given, and its word decodes by the policy. -/
theorem sysAdvancesOnly : Obligations.SysAdvancesOnly := fun nnn _ =>
  ⟨rfl, fun hwf => ⟨decodeWord_sys_nop nnn hwf, decodeWord_sys_unknown nnn hwf⟩⟩

/-- Settles O31: the entry RET pops is the one CALL pushed. -/
theorem retUndoesCall : Obligations.RetUndoesCall := by
  intro nnn s t u h hstack
  obtain ⟨-, rfl⟩ := execCall_next h
  exact exec_ret_of_cons hstack

/-- Settles O33: the strict low nibble of the two words, and a skip on equality and on its negation. -/
theorem skipsOnRegisters : Obligations.SkipsOnRegisters := by
  intro p x y n s
  refine ⟨decodeWord_seReg p x y, decodeWord_sneReg p x y, fun hn => ⟨?strict5, ?strict9⟩,
    congrArg Host.Outcome.next (skipIf_beq s (s.reg x) (s.reg y)),
    congrArg Host.Outcome.next (skipIf_bne s (s.reg x) (s.reg y))⟩
  case strict5 => rw [decodeWord_family5, if_neg hn]
  case strict9 => rw [decodeWord_family9, if_neg hn]

/-- An address and a byte add up below 65536. -/
theorem addrOperand_add_byte_toNat (nnn : Addr) (b : Byte) :
    (addrOperand nnn + b.setWidth 16).toNat = nnn.toNat + b.toNat := by
  have haddr := nnn.isLt
  have hbyte := b.isLt
  rw [BitVec.toNat_add, addrOperand_toNat, BitVec.toNat_setWidth]
  omega

/-- Settles O34: the register the mode names, and a sum that does not wrap. -/
theorem jumpWithOffset : Obligations.JumpWithOffset := by
  intro p nnn s
  refine ⟨decodeWord_jpV0 p nnn, _, rfl, fun hmode => ?v0, fun hmode => ?vx, rfl⟩
  case v0 => rw [State.setPc_pc, addrOperand_add_byte_toNat, hmode, offsetReg]
  case vx => rw [State.setPc_pc, addrOperand_add_byte_toNat, hmode, offsetReg_vx]

/-- Settles O53: the key of the low nibble, and a skip on its state and on the negation. -/
theorem keySkips : Obligations.KeySkips := by
  intro p x s
  refine ⟨decodeWord_skp p x, decodeWord_sknp p x, ?skp, ?sknp⟩
  case skp => rw [exec, execSkp, skipIf_eq, keyOperand_eq]
  case sknp =>
    rw [exec, execSknp, skipIf_eq, keyOperand_eq]
    simp only [Bool.not_eq_true', ← Bool.not_eq_true, ite_not]

/-! ## The register file -/

/-- Settles O36: one register write, of the sum modulo 256. -/
theorem addImmediateWrapsWithoutFlag : Obligations.AddImmediateWrapsWithoutFlag := by
  intro p x nn s
  refine ⟨decodeWord_addImm p x nn, _, rfl, ?_⟩
  rw [← add_eq_ofNat_mod]
  exact regWritten_setReg s x _

/-- Settles O37: each is one register write, whose byte is read bit by bit. -/
theorem bitwiseOperations : Obligations.BitwiseOperations := by
  intro p x y s
  have written (r : Byte) : RegWritten s (s.setReg x r) x ((s.setReg x r).reg x) := by
    rw [State.reg_setReg_self]
    exact regWritten_setReg s x r
  refine ⟨decodeWord_orReg p x y, decodeWord_andReg p x y, decodeWord_xorReg p x y,
    ⟨_, rfl, written _, fun b => ?or⟩, ⟨_, rfl, written _, fun b => ?and⟩, ⟨_, rfl, written _, fun b => ?xor⟩⟩
  case or => rw [State.reg_setReg_self, BitVec.getLsbD_or]
  case and => rw [State.reg_setReg_self, BitVec.getLsbD_and]
  case xor => rw [State.reg_setReg_self, BitVec.getLsbD_xor]

/-- Settles O52: the draw is the first pending value or else the next free one, and one register write follows it. -/
theorem randomUnderMask : Obligations.RandomUnderMask := fun p x nn _ =>
  ⟨decodeWord_rnd p x nn, fun _ _ hp => ⟨_, exec_rnd_of_pending x nn hp, regWritten_setReg _ x _⟩,
    fun hp => ⟨_, exec_rnd_of_free x nn hp, regWritten_setReg _ x _⟩⟩

/-! ## I -/

/-- Settles O42: 16-bit addition of the zero-extended register. -/
theorem addToIndex : Obligations.AddToIndex := by
  intro p x s
  refine ⟨decodeWord_addI p x, _, rfl, ?_, rfl⟩
  have hbyte := (s.reg x).isLt
  rw [State.setI_i, BitVec.toNat_add, BitVec.toNat_setWidth]
  omega

/-- Settles O43: the glyph's address as a number. -/
theorem glyphAddress : Obligations.GlyphAddress := fun p x s =>
  ⟨decodeWord_ldF p x, s.setI (glyphAddr (s.reg x)), rfl, glyphAddr_toNat (s.reg x), rfl⟩

/-! ## Stores at I -/

theorem map_toNat_bcdDigits (b : Byte) :
    (bcdDigits b).map BitVec.toNat = [b.toNat / 100, b.toNat / 10 % 10, b.toNat % 10] := by
  have := b.isLt
  simp [bcdDigits]
  omega

/-- The k-th digit, as a number, where the access at I + k reaches. -/
theorem storedMem_bcdDigits_toNat {s : State} {b : Byte} {k a : Nat} (hb : InBounds s.params.oob s.i.toNat 3)
    (hk : k < 3) (ha : resolve s.params.oob (s.i.toNat + k) = .ok a) :
    ((storedMem s s.i.toNat (bcdDigits b)).read a).toNat = [b.toNat / 100, b.toNat / 10 % 10, b.toNat % 10][k] := by
  have hk' : k < (bcdDigits b).length := by rwa [bcdDigits_length]
  rw [storedMem_read_of_resolve (by rwa [bcdDigits_length]) (by simp) hk' ha,
    ← List.getElem_map BitVec.toNat (h := by simpa)]
  simp only [map_toNat_bcdDigits]

/-- Settles O44: in bounds LD B is one store of the three digits at I, read back address by address. -/
theorem bcdStoresDecimalDigits : Obligations.BcdStoresDecimalDigits := fun p x s =>
  ⟨decodeWord_ldB p x,
    fun hb => ⟨_, exec_ldB_of_inBounds hb, fun _ => storedMem_bcdDigits_toNat (k := 0) hb (by decide),
      fun _ => storedMem_bcdDigits_toNat (k := 1) hb (by decide),
      fun _ => storedMem_bcdDigits_toNat (k := 2) hb (by decide),
      fun _ => storedMem_read_of_unreached (bs := bcdDigits (s.reg x)) hb, rfl⟩,
    exec_ldB_of_not_inBounds⟩

/-- LD [I], Vx in the terms of a later access: I, pc and the parameters as they were, the accesses in bounds, and V[z]
where the access at I + z reaches. -/
theorem ldMemVx_stores {x : RegIdx} {s t : State} (h : exec (.ldMemVx x) s = .next t) :
    InBounds s.params.oob s.i.toNat (x.toNat + 1) ∧ t = { s with mem := t.mem } ∧
      ∀ (z : RegIdx) (a : Nat), z.toNat ≤ x.toNat → resolve s.params.oob (s.i.toNat + z.toNat) = .ok a →
        t.mem.read a = s.reg z := by
  obtain ⟨hb, -⟩ := execLdMemVx_next h
  obtain ⟨-, hstore, -⟩ := blockStore .nop x s
  obtain ⟨t', ht', hread, -, hframe⟩ := hstore hb
  obtain rfl : t' = t := by simpa [ht'] using h
  exact ⟨hb, hframe, hread⟩

/-- Settles O47: both instructions resolve the same addresses, so each register is loaded from where it was stored
(after O45 and O46). -/
theorem storeThenLoadRestores : Obligations.StoreThenLoadRestores := by
  intro x s t u h hmem hi hparams
  obtain ⟨hb, hframe, hstored⟩ := ldMemVx_stores h
  have hi' : u.i = s.i := by rw [hi, hframe]
  have hp' : u.params = s.params := by rw [hparams, hframe]
  obtain ⟨-, hload, -⟩ := blockLoad .nop x u
  rw [hi', hp'] at hload
  obtain ⟨w, hw, hloaded, hkept, -⟩ := hload hb
  refine ⟨w, hw, fun z => ?_⟩
  split
  case isTrue hz =>
    have ha := resolve_of_inBounds hb (Nat.lt_succ_of_le hz)
    rw [hloaded z _ hz ha, hmem, hstored z _ hz ha]
  case isFalse hz => exact hkept z (Nat.lt_of_not_le hz)

/-- Settles O21: the fetch resolves the addresses of V0 and V1. -/
theorem storeIsSeenByNextFetch : Obligations.StoreIsSeenByNextFetch := by
  intro x s t h hx hpc
  obtain ⟨hb, hframe, hstored⟩ := ldMemVx_stores h
  have hhi := resolve_of_inBounds (k := 0) hb (by omega)
  have hlo := resolve_of_inBounds (k := 1) hb (by omega)
  have htpc : t.pc = s.i := by rw [hframe, hpc]
  have htp : t.params = s.params := by rw [hframe]
  rw [fetch_of_resolve t (by rw [htpc, htp]; exact hhi) (by rw [htpc, htp]; exact hlo),
    hstored 0#4 _ (Nat.zero_le _) hhi, hstored 1#4 _ hx hlo, wordOfBytes]

end Sys2Proof.Machine
end

section
/-! Memory after construction, after a load and after the placement of a word, and the step that fetches from it
(70_reset_and_hazards.md, 60_exceptions.md R294, log 4). -/

namespace Sys2Proof.Machine

/-! ## The state after construction -/

/-- Settles O1: the constructed state, field by field. -/
theorem resetState : Obligations.ResetState := by
  refine ⟨fun x => ?regs, rfl, rfl, rfl, rfl, rfl, pixel_blankScreen, rfl, rfl, fun k => ?keys, rfl⟩
  case regs => simp [State.reg, State.reset, State.construct]
  case keys => simp [State.key, State.keyPrev, State.reset, State.construct]

theorem fontData_length : fontData.length = 80 := rfl

theorem read_construct (p : Params) (a : Nat) : (State.construct p).mem.read a = resetByte a := rfl

theorem resetByte_fontBase_add (k : Nat) : resetByte (fontBase + k) = fontData.getD k 0#8 := by
  rw [resetByte, if_pos (Nat.le_add_right _ _), Nat.add_sub_cancel_left]

theorem resetByte_outside_font {a : Nat} (h : a < 0x050 ∨ 0x0A0 ≤ a) : resetByte a = 0#8 := by
  unfold resetByte
  split
  case isTrue hbase =>
    simp only [fontBase] at hbase ⊢
    exact List.getD_eq_default _ _ (by rw [fontData_length]; omega)
  case isFalse => rfl

/-- Settles O2: with no byte listed, memory reads as the reset contents. -/
theorem memoryAfterConstruction : Obligations.MemoryAfterConstruction := fun p a =>
  ⟨fontData_length, fun k _ => (read_construct p _).trans (resetByte_fontBase_add k),
    fun ha => (read_construct p a).trans (resetByte_outside_font ha)⟩

/-! ## The fetch of a word laid into memory -/

theorem fetch_of_bytes {s : State} {w : Word} {a b : Nat} (hhi : resolve s.params.oob s.pc.toNat = .ok a)
    (hlo : resolve s.params.oob (s.pc.toNat + 1) = .ok b) (ha : s.mem.read a = w.extractLsb' 8 8)
    (hb : s.mem.read b = w.extractLsb' 0 8) : fetch s = .ok w := by
  rw [fetch_of_resolve s hhi hlo, ha, hb, wordOfBytes_bytes]

@[simp] theorem bytesOfWord_length (w : Word) : (bytesOfWord w).length = 2 := rfl

theorem tableWord_toNat (w : Word) : tableWord 16 w.toNat = w := by
  rw [tableWord, Nat.mod_eq_of_lt w.isLt, BitVec.ofNat_toNat, BitVec.setWidth_eq]

theorem fetchableAddr_of_inBounds {s : State} (h : InBounds s.params.oob s.pc.toNat 2) : fetchableAddr s = s.pc := by
  rw [fetchableAddr, resolveRange_of_inBounds _ _ _ h]
  rfl

theorem fetchableAddr_of_not_inBounds {s : State} (h : ¬ InBounds s.params.oob s.pc.toNat 2) :
    fetchableAddr s = 0x200#16 := by
  rw [fetchableAddr, resolveRange_of_not_inBounds _ _ _ h]
  rfl

theorem inBounds_fetchableAddr (s : State) : InBounds s.params.oob (fetchableAddr s).toNat 2 := by
  by_cases h : InBounds s.params.oob s.pc.toNat 2
  · rwa [fetchableAddr_of_inBounds h]
  · rw [fetchableAddr_of_not_inBounds h]
    exact .inr (.inl (by decide))

theorem placeWord_of_inBounds {s : State} {a : Word} (w : Word) (h : InBounds s.params.oob a.toNat 2) :
    placeWord s a w = storedMem s a.toNat (bytesOfWord w) := by
  rw [placeWord, resolveRange_of_inBounds _ _ _ h]
  rfl

/-- The placed word is the one fetched, wrapped addresses among them. -/
theorem fetch_withFetchWord (s : State) (w : Word) : fetch (s.withFetchWord 16 w.toNat) = .ok w := by
  have hb : InBounds s.params.oob (fetchableAddr s).toNat (bytesOfWord w).length := inBounds_fetchableAddr s
  have hsize : (bytesOfWord w).length ≤ Config.memSize := by simp
  have hmem : (s.withFetchWord 16 w.toNat).mem = storedMem s (fetchableAddr s).toNat (bytesOfWord w) := by
    rw [State.withFetchWord, tableWord_toNat]
    exact placeWord_of_inBounds w hb
  have hhi := resolve_of_inBounds (k := 0) hb (by simp)
  have hlo := resolve_of_inBounds (k := 1) hb (by simp)
  refine fetch_of_bytes hhi hlo ?_ ?_
  · rw [hmem, storedMem_read_of_resolve (k := 0) hb hsize (by simp) hhi]; rfl
  · rw [hmem, storedMem_read_of_resolve (k := 1) hb hsize (by simp) hlo]; rfl

/-- Settles O13: the placed word is fetched and, after O6, decodes to the instruction it encodes. -/
theorem encodedInstructionRunsNext : Obligations.EncodedInstructionRunsNext := by
  intro s i hwf hsys
  exact ⟨_, rfl, rfl, fetchableAddr_of_inBounds, fetchableAddr_of_not_inBounds,
    step_of_fetch_op rfl (fetch_withFetchWord s (encode i)) (decodeWord_encode s.params.sys hwf hsys)⟩

/-! ## The host's load -/

theorem map_fst_romCells (bytes : List Byte) : (romCells bytes).map Prod.fst = List.range' 0x200 bytes.length :=
  List.map_fst_zip (by simp)

theorem mem_romCells {bytes : List Byte} {k : Nat} (hk : k < bytes.length) :
    (0x200 + k, bytes[k]) ∈ romCells bytes :=
  List.mem_iff_getElem.2 ⟨k, by simpa [romCells] using hk, by simp [romCells]⟩

theorem read_writeAll_romCells (m : Memory) {bytes : List Byte} {k : Nat} (hk : k < bytes.length) :
    (m.writeAll (romCells bytes)).read (0x200 + k) = bytes[k] := by
  refine Memory.read_writeAll_of_mem _ m (0x200 + k, bytes[k]) ?_ (mem_romCells hk)
  rw [map_fst_romCells]
  exact List.nodup_range'

theorem read_writeAll_romCells_outside (m : Memory) {bytes : List Byte} {a : Nat}
    (ha : a < 0x200 ∨ 0x200 + bytes.length ≤ a) : (m.writeAll (romCells bytes)).read a = m.read a := by
  refine Memory.read_writeAll_of_absent _ m a fun c hc hca => ?_
  have haddr : c.1 ∈ List.range' 0x200 bytes.length := by
    rw [← map_fst_romCells]
    exact List.mem_map_of_mem hc
  rw [List.mem_range'_1, hca] at haddr
  omega

theorem transact_load_of_fits (s : State) {bytes : List Byte} (h : bytes.length ≤ Config.maxRom) :
    transact s (.load bytes) = .ok ({ s with mem := s.mem.writeAll (romCells bytes) }, .done) := by
  rw [transact, load_of_fits s h]

theorem transact_load_of_too_long (s : State) {bytes : List Byte} (h : Config.maxRom < bytes.length) :
    transact s (.load bytes) = .ok (s, .err .loadError) := by
  rw [transact, load_of_too_long s h]

/-- Settles O58: a load that fits writes one cell for each byte, at different addresses. -/
theorem loadCopiesTheProgram : Obligations.LoadCopiesTheProgram := fun s _ =>
  ⟨fun hfits => ⟨_, transact_load_of_fits s hfits,
      fun _ hk => (read_writeAll_romCells s.mem hk).trans (List.getD_eq_getElem _ _ hk).symm,
      fun _ => read_writeAll_romCells_outside s.mem, rfl⟩,
    transact_load_of_too_long s⟩

/-- Settles O59: the load puts the two bytes of the word at 0x200 and 0x201, where the first step fetches. -/
theorem bootRunsTheLoadedProgram : Obligations.BootRunsTheLoadedProgram := by
  intro p i rest hwf hsys hrest
  have hlen : (encodeBytes i ++ rest).length = rest.length + 2 := by
    rw [List.length_append, Nat.add_comm]
    rfl
  have hfits : (encodeBytes i ++ rest).length ≤ Config.maxRom := by
    rw [hlen]
    exact Nat.add_le_add_right hrest 2
  refine ⟨_, transact_load_of_fits (State.construct p) hfits, rfl, rfl,
    step_of_fetch_op rfl (fetch_of_bytes (a := 0x200 + 0) (b := 0x200 + 1) ?high ?low ?highByte ?lowByte)
      (decodeWord_encode p.sys hwf hsys)⟩
  case high => exact resolve_of_lt _ (show 0x200 < 4096 by decide)
  case low => exact resolve_of_lt _ (show 0x201 < 4096 by decide)
  case highByte => exact read_writeAll_romCells _ (by omega)
  case lowByte => exact read_writeAll_romCells _ (by omega)

/-! ## The run through zeroed memory -/

/-- The constructed machine with pc after k words. -/
def resetAtWord (k : Nat) : State := { State.reset with pc := BitVec.ofNat 16 (0x200 + 2 * k) }

theorem resetAtWord_pc_toNat {k : Nat} (hk : k ≤ 1792) : (resetAtWord k).pc.toNat = 0x200 + 2 * k :=
  Nat.mod_eq_of_lt (by omega)

/-- Below 0x1000 the word fetched is 0x0000, which decodes to SYS 0x000. -/
theorem step_resetAtWord {k : Nat} (hk : k < 1792) : step (resetAtWord k) = .next (resetAtWord (k + 1)) := by
  have hpc := resetAtWord_pc_toNat (Nat.le_of_lt hk)
  have hzero {a : Nat} (ha : 0x200 ≤ a) : (resetAtWord k).mem.read a = 0#8 :=
    resetByte_outside_font (.inr (by omega))
  have hf : fetch (resetAtWord k) = .ok 0x0000#16 := by
    refine fetch_of_bytes (resolve_of_lt _ ?_) (resolve_of_lt _ ?_) (hzero ?_) (hzero ?_)
    all_goals simp only [hpc, Config.memSize]
    all_goals omega
  rw [step_of_fetch_op rfl hf (decodeWord_sys_nop 0x000#12 rfl)]
  have hadd : (resetAtWord k).pc + 2#16 = (resetAtWord (k + 1)).pc := by
    apply BitVec.eq_of_toNat_eq
    rw [BitVec.toNat_add, hpc, BitVec.toNat_ofNat, resetAtWord_pc_toNat hk]
    exact Nat.mod_eq_of_lt (by omega)
  rw [hadd]
  rfl

theorem hostRun_resetAtWord (n : Nat) {k : Nat} (h : k + n ≤ 1792) :
    hostRun (List.replicate n .step) (resetAtWord k) = .ok (resetAtWord (k + n), List.replicate n .done) := by
  induction n generalizing k with
  | zero => rfl
  | succ n ih =>
    have hstep : transact (resetAtWord k) .step = .ok (resetAtWord (k + 1), .done) := by
      rw [transact, step_resetAtWord (by omega)]
    have hrun := ih (k := k + 1) (by omega)
    rw [Nat.add_right_comm, Nat.add_assoc k n 1] at hrun
    exact hostRun_cons_of_ok hstep hrun

/-- Settles O20: the run from word 0, and the fetch at 0x1000, which fails the address check. -/
theorem zeroedMemoryRunsToTheEnd : Obligations.ZeroedMemoryRunsToTheEnd := by
  refine ⟨fun k hk => ?_, transact_step_of_fault ?_⟩
  · have hrun := hostRun_resetAtWord k (k := 0) (by omega)
    rwa [Nat.zero_add] at hrun
  · exact step_of_fetch_error rfl (fetch_of_high_error (memRead_of_fault rfl (Nat.le_refl _)))

end Sys2Proof.Machine
end

section
/-! The host's key, pc and observations (60_exceptions.md R293, R296 to R299), and the snapshot as the rows of the
framebuffer one after the other. -/

namespace Sys2Proof.Machine

/-! ## set_key and set_pc -/

/-- Settles O57: one entry of the snapshot of keys, by its index below 16; and pc. -/
theorem hostWritesOneThing : Obligations.HostWritesOneThing := by
  intro s k p v
  refine ⟨fun hk => ⟨s.pressKey (BitVec.ofNat 4 k) p, ?accepted, fun j => ?entry, rfl⟩, fun hk => ?refused, rfl⟩
  case accepted => rw [transact, if_pos hk]
  case entry =>
    have hj : j = BitVec.ofNat 4 k ↔ j.toNat = k := by
      rw [← BitVec.toNat_inj, BitVec.toNat_ofNat, Nat.mod_eq_of_lt hk]
    simp only [State.key_pressKey, hj]
  case refused => rw [transact, if_neg (Nat.not_lt.2 hk)]

/-! ## The snapshot -/

theorem length_flatMap_rows (rows : List (Vector Bool 64)) :
    (rows.flatMap Vector.toList).length = 64 * rows.length := by
  induction rows with
  | nil => rfl
  | cons row rows ih =>
    rw [List.flatMap_cons, List.length_append, ih, Vector.length_toList, List.length_cons]
    omega

theorem getElem?_flatMap_rows (rows : List (Vector Bool 64)) {x y : Nat} (hx : x < 64) (hy : y < rows.length) :
    (rows.flatMap Vector.toList)[64 * y + x]? = some rows[y][x] := by
  induction rows generalizing y with
  | nil => cases hy
  | cons row rows ih =>
    rw [List.flatMap_cons]
    cases y with
    | zero =>
      rw [List.getElem?_append_left (by rw [Vector.length_toList]; omega)]
      simp [hx]
    | succ y =>
      rw [List.getElem?_append_right (by rw [Vector.length_toList]; omega), Vector.length_toList,
        show 64 * (y + 1) + x - 64 = 64 * y + x by omega]
      exact ih (Nat.lt_of_succ_lt_succ hy)

theorem snapshot_length (s : State) : s.snapshot.length = 2048 := by
  rw [State.snapshot, length_flatMap_rows, Vector.length_toList]

/-- Row-major order (R296). -/
theorem snapshot_getD (s : State) {x y : Nat} (hx : x < 64) (hy : y < 32) :
    s.snapshot.getD (64 * y + x) false = pixel s.fb x y := by
  rw [State.snapshot, List.getD_eq_getElem?_getD, getElem?_flatMap_rows _ hx (by simpa using hy), pixel_of_lt _ hx hy]
  simp

/-! ## Inspection -/

/-- An inspection is a reply or a refusal, and neither changes the state. -/
theorem transact_inspect_state {s t : State} {q : Query} {r : Reply} (h : transact s (.inspect q) = .ok (t, r)) :
    t = s := by
  simp only [transact] at h
  split at h <;> cases h
  rfl

theorem stackEntry_sp_sub_one {s : State} {w : Word} {rest : List Word} (h : s.stack = w :: rest) :
    s.stackEntry (s.sp - 1) = some w := by
  simp [State.stackEntry, State.sp, h]

theorem transact_peek (s : State) : transact s (.inspect .peek) = .ok (s, .top s.stack.head?) := rfl

theorem transact_entry_of_lt {s : State} {k : Nat} {w : Word} (h : s.stackEntry k = some w) :
    transact s (.inspect (.entry k)) = .ok (s, .word w) := by
  simp [transact, inspect, h]

theorem transact_entry_of_none {s : State} {k : Nat} (h : s.stackEntry k = none) :
    transact s (.inspect (.entry k)) = .error (.entryOutOfRange k) := by
  simp [transact, inspect, h]

theorem transact_byte_of_lt (s : State) {a : Nat} (h : a < Config.memSize) :
    transact s (.inspect (.byte a)) = .ok (s, .byte (s.mem.read a)) := by
  rw [transact, inspect, if_pos h]

theorem transact_byte_of_le (s : State) {a : Nat} (h : Config.memSize ≤ a) :
    transact s (.inspect (.byte a)) = .error (.byteOutOfRange a) := by
  rw [transact, inspect, if_neg (Nat.not_lt.2 h)]

/-- Settles O60: each observation by its reply, in the order of the statement. -/
theorem observationsChangeNothing : Obligations.ObservationsChangeNothing := by
  intro s px py q
  refine ⟨fun hx hy => ?inside, fun hout => ?outside, transact_soundActive s,
    ⟨_, rfl, snapshot_length s, snapshot_getD s⟩, fun t r => transact_inspect_state, fun _ => rfl, rfl, rfl, rfl, rfl,
    rfl, rfl, fun hpos => ?top, fun hempty => ?noTop, fun a => transact_byte_of_lt s, fun a => transact_byte_of_le s,
    fun k hk => ?entry, fun k hk => transact_entry_of_none (stackEntry_of_le hk), rfl, fun _ => rfl, fun _ => rfl⟩
  case inside => rw [transact, if_pos ⟨hx, hy⟩]
  case outside => rw [transact, if_neg fun hin => by simp only [Config.dispW, Config.dispH] at hin; omega]
  case top =>
    obtain ⟨w, rest, hs⟩ := List.exists_cons_of_length_pos hpos
    exact ⟨w, stackEntry_sp_sub_one hs, by rw [transact_peek, hs, List.head?_cons]⟩
  case noTop => rw [transact_peek, List.length_eq_zero_iff.1 hempty, List.head?_nil]
  case entry =>
    obtain ⟨w, hw⟩ := stackEntry_of_lt hk
    exact ⟨w, hw, transact_entry_of_lt hw⟩

end Sys2Proof.Machine
end

section
/-! DRW (44_display.md R230 to R235): a list of pixels drawn onto a screen and a collision bit, of which both the
closed form and the pseudocode's loop are cases; then DRW pixel by pixel, and DRW twice. -/

namespace Sys2Proof.Machine

/-! ## Pixels drawn onto a screen and a collision bit -/

/-- Every pixel of ps flipped, and the collision bit raised if one of them was on. -/
def drawOnto (ps : List (Nat × Nat)) (acc : Framebuffer × Bool) : Framebuffer × Bool :=
  (xorPixels acc.1 ps, acc.2 || collides acc.1 ps)

theorem drawOnto_nil (acc : Framebuffer × Bool) : drawOnto [] acc = acc := by
  simp [drawOnto, collides]

/-- Pixels drawn one list after the other are drawn together, when no pixel is in both lists. -/
theorem drawOnto_append (ps qs : List (Nat × Nat)) (acc : Framebuffer × Bool) (hdisj : ∀ p ∈ ps, p ∉ qs)
    (hin : ∀ p ∈ qs, p.1 < 64 ∧ p.2 < 32) : drawOnto (ps ++ qs) acc = drawOnto qs (drawOnto ps acc) := by
  simp only [drawOnto, xorPixels_append _ _ _ hdisj, collides_xorPixels _ _ _ hdisj hin]
  simp [collides, Bool.or_assoc]

theorem drawSprite_eq_drawOnto (fb : Framebuffer) (x y : Nat) (rows : List Byte) :
    drawSprite fb x y rows = drawOnto (placed (x % 64) (y % 32) rows) (fb, false) := by
  simp [drawSprite, drawOnto]

/-! ## One bit of the loop (R235) -/

/-- The pixels some bits of a row byte place; over all eight bits, `placedRow`. -/
def placedBits (x0 y : Nat) (row : Byte) (bs : List Nat) : List (Nat × Nat) :=
  (bs.filter fun b => row.getLsbD (7 - b) && decide (x0 + b < Config.dispW)
    && decide (y < Config.dispH)).map fun b => (x0 + b, y)

theorem placedRow_eq_placedBits (x0 y : Nat) (row : Byte) : placedRow x0 y row = placedBits x0 y row (List.range 8) :=
  rfl

theorem placedBits_cons (x0 y : Nat) (row : Byte) (b : Nat) (bs : List Nat) :
    placedBits x0 y row (b :: bs) = placedBits x0 y row [b] ++ placedBits x0 y row bs := by
  rw [placedBits, ← List.singleton_append, List.filter_append, List.map_append]
  rfl

theorem mem_placedBits {x0 y : Nat} {row : Byte} {bs : List Nat} {p : Nat × Nat} (h : p ∈ placedBits x0 y row bs) :
    ∃ b ∈ bs, p = (x0 + b, y) ∧ p.1 < 64 ∧ p.2 < 32 := by
  obtain ⟨b, hb, rfl⟩ := List.mem_map.1 h
  obtain ⟨hmem, hcond⟩ := List.mem_filter.1 hb
  simp only [Bool.and_eq_true, decide_eq_true_eq] at hcond
  exact ⟨b, hmem, rfl, hcond.1.2, hcond.2⟩

theorem and_one_eq_one_iff (row : Byte) (k : Nat) : (row >>> k) &&& 1#8 = 1#8 ↔ row.getLsbD k = true := by
  rw [BitVec.and_one_eq_setWidth_ofBool_getLsbD, BitVec.getLsbD_ushiftRight, Nat.add_zero]
  cases row.getLsbD k <;> decide

theorem pixel_setPixel (fb : Framebuffer) {x y : Nat} (on : Bool) {px py : Nat} (hy : y < 32)
    (hpx : px < 64) (hpy : py < 32) :
    pixel (setPixel fb x y on) px py = if px = x ∧ py = y then on else pixel fb px py := by
  rw [pixel_of_lt _ hpx hpy, pixel_of_lt _ hpx hpy]
  simp only [setPixel, Vector.getElem?_eq_getElem hy, Vector.getElem_setIfInBounds, eq_comm]
  by_cases hrow : y = py
  · subst hrow; simp [Vector.getElem_setIfInBounds]
  · simp [hrow]

theorem setPixel_not_eq_xorPixels (fb : Framebuffer) {x y : Nat} (hx : x < 64) (hy : y < 32) :
    setPixel fb x y (pixel fb x y ^^ true) = xorPixels fb [(x, y)] := by
  refine framebuffer_ext fun px py hpx hpy => ?_
  rw [pixel_setPixel fb _ hy hpx hpy, pixel_xorPixels fb _ hpx hpy]
  by_cases hp : px = x ∧ py = y
  · obtain ⟨rfl, rfl⟩ := hp; simp
  · simp [hp]

theorem drawBit_eq_drawOnto (x0 y : Nat) (row : Byte) (acc : Framebuffer × Bool) (b : Nat) :
    drawBit x0 y row acc b = drawOnto (placedBits x0 y row [b]) acc := by
  by_cases hcond : x0 + b < 64 ∧ y < 32 ∧ row.getLsbD (7 - b) = true
  · obtain ⟨hx, hy, hbit⟩ := hcond
    have hps : placedBits x0 y row [b] = [(x0 + b, y)] := by simp [placedBits, hx, hy, hbit]
    simp only [hps, drawBit, Config.dispW, Config.dispH, and_one_eq_one_iff, hx, hy, hbit, and_self, if_true]
    refine Prod.ext (setPixel_not_eq_xorPixels acc.1 hx hy) ?_
    cases hon : pixel acc.1 (x0 + b) y <;> simp [drawOnto, collides, hon]
  · have hps : placedBits x0 y row [b] = [] := by
      simp only [placedBits, List.map_eq_nil_iff, List.filter_eq_nil_iff, List.mem_singleton, Bool.and_eq_true,
        decide_eq_true_eq]
      rintro _ rfl ⟨⟨hbit, hx⟩, hy⟩
      exact hcond ⟨hx, hy, hbit⟩
    rw [hps, drawOnto_nil]
    simp [drawBit, and_one_eq_one_iff, hcond]

/-! ## The whole loop -/

theorem foldl_drawBit_eq_drawOnto (x0 y : Nat) (row : Byte) {bs : List Nat} (hbs : bs.Nodup)
    (acc : Framebuffer × Bool) : bs.foldl (drawBit x0 y row) acc = drawOnto (placedBits x0 y row bs) acc := by
  induction bs generalizing acc with
  | nil => exact (drawOnto_nil acc).symm
  | cons b bs ih =>
    obtain ⟨hb, hbs⟩ := List.nodup_cons.1 hbs
    have hdisj : ∀ p ∈ placedBits x0 y row [b], p ∉ placedBits x0 y row bs := by
      intro p hp hq
      obtain ⟨c, hc, rfl, -⟩ := mem_placedBits hp
      obtain ⟨d, hd, heq, -⟩ := mem_placedBits hq
      simp only [List.mem_singleton, Prod.mk.injEq] at hc heq
      exact hb ((show d = b by omega) ▸ hd)
    have hin : ∀ p ∈ placedBits x0 y row bs, p.1 < 64 ∧ p.2 < 32 := fun p hp =>
      have ⟨_, _, _, hin⟩ := mem_placedBits hp
      hin
    rw [List.foldl_cons, drawBit_eq_drawOnto, ih hbs, placedBits_cons (bs := bs), drawOnto_append _ _ _ hdisj hin]

theorem drawLoop_eq_drawOnto (rows : List Byte) (x0 y0 : Nat) (acc : Framebuffer × Bool) :
    drawLoop x0 y0 rows acc = drawOnto (placed x0 y0 rows) acc := by
  induction rows generalizing y0 acc with
  | nil => exact (drawOnto_nil acc).symm
  | cons row rows ih =>
    have hdisj : ∀ p ∈ placedRow x0 y0 row, p ∉ placed x0 (y0 + 1) rows := by
      rintro ⟨px, py⟩ hp hq
      have hrow := (mem_placedRow x0 y0 row px py).1 hp
      have hbelow := (mem_placed rows x0 (y0 + 1) px py).1 hq
      omega
    have hin : ∀ p ∈ placed x0 (y0 + 1) rows, p.1 < 64 ∧ p.2 < 32 := by
      rintro ⟨px, py⟩ hp
      have hscreen := (mem_placed rows x0 (y0 + 1) px py).1 hp
      omega
    rw [drawLoop, foldl_drawBit_eq_drawOnto x0 y0 row List.nodup_range, ih, placed, drawOnto_append _ _ _ hdisj hin,
      placedRow_eq_placedBits]

/-- Settles O50: the loop draws the bits one by one, and no two of them place one pixel. -/
theorem drawMatchesPseudocodeLoop : Obligations.DrawMatchesPseudocodeLoop := fun fb x y rows => by
  rw [drawSprite_eq_drawOnto, drawLoop_eq_drawOnto]

/-! ## DRW pixel by pixel -/

/-- The pixels on the screen that DRW flips. -/
def spritePixels (s : State) (x y : RegIdx) (n : Nibble) : List (Nat × Nat) :=
  placed ((s.reg x).toNat % 64) ((s.reg y).toNat % 32) (bytesAtI s n.toNat)

theorem drawnSprite_eq (s : State) (x y : RegIdx) (n : Nibble) :
    drawnSprite s x y n = (xorPixels s.fb (spritePixels s x y n), collides s.fb (spritePixels s x y n)) := rfl

theorem bytesAtI_getElem?_eq_some (s : State) {n k : Nat} {b : Byte} :
    (bytesAtI s n)[k]? = some b ↔ k < n ∧ s.mem.read (effAddr s.params.oob (s.i.toNat + k)) = b := by
  simp only [List.getElem?_eq_some_iff, bytesAtI_getElem, bytesAtI_length, exists_prop]

/-- In bounds, the flipped pixels are those of the screen for which the sprite has a 1. -/
theorem mem_spritePixels {s : State} {x y : RegIdx} {n : Nibble} (hb : InBounds s.params.oob s.i.toNat n.toNat)
    (px py : Nat) : (px, py) ∈ spritePixels s x y n ↔ px < 64 ∧ py < 32 ∧ SpriteOn s x y n px py := by
  rw [spritePixels, mem_placed]
  constructor
  · rintro ⟨hy, hx, hxlo, hxhi, hylo, row, hrow, hbit⟩
    obtain ⟨hr, rfl⟩ := (bytesAtI_getElem?_eq_some s).1 hrow
    exact ⟨hx, hy, _, px - (s.reg x).toNat % 64, _, hr, by omega, by omega, by omega, resolve_of_inBounds hb hr, hbit⟩
  · rintro ⟨hx, hy, r, b, a, hr, hb8, rfl, rfl, ha, hbit⟩
    refine ⟨hy, hx, by omega, by omega, by omega, s.mem.read a, ?_, ?_⟩
    · rw [Nat.add_sub_cancel_left, bytesAtI_getElem?_eq_some, eq_effAddr_of_resolve hb hr ha]
      exact ⟨hr, rfl⟩
    · rwa [Nat.add_sub_cancel_left]

theorem collides_spritePixels {s : State} {x y : RegIdx} {n : Nibble}
    (hb : InBounds s.params.oob s.i.toNat n.toNat) :
    collides s.fb (spritePixels s x y n) = true ↔ SpriteCollides s x y n := by
  simp only [collides_iff, Prod.exists, mem_spritePixels hb, and_assoc]

theorem flagByte_of_true {c : Bool} (h : c = true) : flagByte c = 1#8 := by rw [h]; rfl

theorem flagByte_of_not_true {c : Bool} (h : ¬ c = true) : flagByte c = 0#8 := by
  rw [Bool.eq_false_iff.2 h]; rfl

/-- Settles O49: in bounds DRW flips the sprite's pixels and writes whether one of them was on; out of bounds the
check raises the error. -/
theorem Drw.drawSprite : Obligations.DrawSprite := by
  intro p x y n s
  refine ⟨decodeWord_drw p x y n, fun hb => ⟨_, exec_drw_of_inBounds hb, fun px py hx hy hon => ?flipped,
    fun px py hx hy hoff => ?kept, fun hc => ?collision, fun hc => ?clear, fun z hz => State.reg_setReg_ne _ _ hz, rfl⟩,
    exec_drw_of_not_inBounds⟩
  all_goals rw [drawnSprite_eq]
  case flipped =>
    have hmem := (mem_spritePixels hb px py).2 ⟨hx, hy, hon⟩
    simp [pixel_xorPixels _ _ hx hy, hmem]
  case kept =>
    have hmem : (px, py) ∉ spritePixels s x y n := fun h => hoff ((mem_spritePixels hb px py).1 h).2.2
    simp [pixel_xorPixels _ _ hx hy, hmem]
  case collision => rw [State.reg_setReg_self, flagByte_of_true ((collides_spritePixels hb).2 hc)]
  case clear => rw [State.reg_setReg_self, flagByte_of_not_true fun h => hc ((collides_spritePixels hb).1 h)]

/-! ## DRW twice -/

theorem xorPixels_xorPixels (fb : Framebuffer) (ps : List (Nat × Nat)) : xorPixels (xorPixels fb ps) ps = fb := by
  refine framebuffer_ext fun px py hx hy => ?_
  rw [pixel_xorPixels _ _ hx hy, pixel_xorPixels _ _ hx hy, Bool.xor_assoc, Bool.xor_self, Bool.xor_false]

/-- A flip turns some pixel on exactly if the flip back would turn one off. -/
theorem collides_xorPixels_self (fb : Framebuffer) (ps : List (Nat × Nat))
    (hin : ∀ p ∈ ps, p.1 < 64 ∧ p.2 < 32) :
    collides (xorPixels fb ps) ps = true ↔ ∃ px py, pixel fb px py = false ∧ pixel (xorPixels fb ps) px py = true := by
  rw [collides_iff]
  constructor
  · rintro ⟨⟨px, py⟩, hp, hon⟩
    obtain ⟨hx, hy⟩ := hin _ hp
    refine ⟨px, py, ?_, hon⟩
    simpa [pixel_xorPixels _ _ hx hy, hp] using hon
  · rintro ⟨px, py, hoff, hon⟩
    obtain ⟨hx, hy⟩ := pixel_inside hon
    refine ⟨(px, py), ?_, hon⟩
    simpa [pixel_xorPixels _ _ hx hy, hoff] using hon

/-- The first draw keeps V[x], V[y], I, memory and the parameters, so the second flips the same pixels. -/
theorem spritePixels_after_draw {x y : RegIdx} (hx : x ≠ 15#4) (hy : y ≠ 15#4) (n : Nibble) (s : State)
    (f : Framebuffer) (b : Byte) : spritePixels ((s.setScreen f).setReg vf b) x y n = spritePixels s x y n := by
  have hregx : ((s.setScreen f).setReg vf b).reg x = s.reg x := State.reg_setReg_ne _ b hx
  have hregy : ((s.setScreen f).setReg vf b).reg y = s.reg y := State.reg_setReg_ne _ b hy
  rw [spritePixels, hregx, hregy]
  rfl

/-- Settles O51: the second draw flips the pixels of the first back, and its collision bit sees those the first
turned on. -/
theorem drawTwiceRestoresScreen : Obligations.DrawTwiceRestoresScreen := by
  intro x y n s t hx hy h
  obtain ⟨hb, rfl⟩ := execDrw_next h
  have hin : ∀ p ∈ spritePixels s x y n, p.1 < 64 ∧ p.2 < 32 := fun p hp =>
    have ⟨hpx, hpy, _⟩ := (mem_spritePixels hb p.1 p.2).1 hp
    ⟨hpx, hpy⟩
  refine ⟨_, exec_drw_of_inBounds hb, ?screen, fun hon => ?turnedOn, fun hnone => ?noneOn⟩
  all_goals rw [drawnSprite_eq, spritePixels_after_draw hx hy]
  case screen => exact xorPixels_xorPixels s.fb (spritePixels s x y n)
  case turnedOn =>
    rw [State.reg_setReg_self]
    exact flagByte_of_true ((collides_xorPixels_self s.fb _ hin).2 hon)
  case noneOn =>
    rw [State.reg_setReg_self]
    exact flagByte_of_not_true fun hc => hnone ((collides_xorPixels_self s.fb _ hin).1 hc)

end Sys2Proof.Machine
end
